-- ==== Sys2Proof/Word.lean ====
section
/-! DEFINITION. The word types of the machine. All values are unsigned (spec 00_scope.md R7). -/

namespace Sys2Proof

/-- A memory cell, a general register, a timer: 8 bits (R11, R19, R30). -/
abbrev Byte := BitVec 8

/-- An instruction word, `pc`, `I`, a stack entry: 16 bits (R13, R14, R15, R45). -/
abbrev Word := BitVec 16

/-- The 12-bit immediate `nnn` (R47). -/
abbrev Imm12 := BitVec 12

/-- A general register's number, always a 4-bit field of an instruction (R11). -/
abbrev Reg := Fin 16

/-- A key's number, 0..15 (R104). -/
abbrev Key := Fin 16

/-- The register that is also the flag output, `V[0xF]` (R12). -/
abbrev vf : Reg := 15

end Sys2Proof
end

