-- ==== Sys2Proof/Syntax.lean ====
section
/-! DEFINITION. The instructions: one constructor per row of spec/opcode_table.json, in the table's order
(spec 30_encoding.md R51). A word that matches no row is no instruction (R53). -/

namespace Sys2Proof

/-- The 34 instructions. Register fields are register numbers, `nn` and `nnn` are the immediates of R47, and the `n` of
`drw` is a count of rows (R49), which `Instr.WellFormed` bounds. -/
inductive Instr where
  /-- 00E0, clear the display (R93). -/
  | cls
  /-- 00EE, return from subroutine (R60). -/
  | ret
  /-- 1nnn, jump (R61). -/
  | jp (nnn : Imm12)
  /-- 2nnn, call subroutine (R62). -/
  | call (nnn : Imm12)
  /-- 3xnn, skip if equal to immediate (R63). -/
  | seVxNn (x : Reg) (nn : Byte)
  /-- 4xnn, skip if not equal to immediate (R64). -/
  | sneVxNn (x : Reg) (nn : Byte)
  /-- 5xy0, skip if registers equal (R65). -/
  | seVxVy (x y : Reg)
  /-- 6xnn, load immediate (R71). -/
  | ldVxNn (x : Reg) (nn : Byte)
  /-- 7xnn, add immediate without flag (R72). -/
  | addVxNn (x : Reg) (nn : Byte)
  /-- 8xy0, copy register (R73). -/
  | ldVxVy (x y : Reg)
  /-- 8xy1, bitwise OR (R74). -/
  | orVxVy (x y : Reg)
  /-- 8xy2, bitwise AND (R75). -/
  | andVxVy (x y : Reg)
  /-- 8xy3, bitwise exclusive OR (R76). -/
  | xorVxVy (x y : Reg)
  /-- 8xy4, add with carry flag (R77). -/
  | addVxVy (x y : Reg)
  /-- 8xy5, subtract with not-borrow flag (R78). -/
  | subVxVy (x y : Reg)
  /-- 8xy6, shift right by one (R79). -/
  | shrVxVy (x y : Reg)
  /-- 8xy7, reverse subtract with not-borrow flag (R80). -/
  | subnVxVy (x y : Reg)
  /-- 8xyE, shift left by one (R81). -/
  | shlVxVy (x y : Reg)
  /-- 9xy0, skip if registers differ (R66). -/
  | sneVxVy (x y : Reg)
  /-- Annn, load index register (R85). -/
  | ldINnn (nnn : Imm12)
  /-- Bnnn, jump with offset (R67). -/
  | jpV0Nnn (nnn : Imm12)
  /-- Cxnn, masked random byte (R82). -/
  | rndVxNn (x : Reg) (nn : Byte)
  /-- Dxyn, draw an `n`-row sprite (R94). -/
  | drw (x y : Reg) (n : Nat)
  /-- Ex9E, skip if key held (R101). -/
  | skp (x : Reg)
  /-- ExA1, skip if key not held (R102). -/
  | sknp (x : Reg)
  /-- Fx07, read the delay timer (R98). -/
  | ldVxDt (x : Reg)
  /-- Fx0A, wait for a key release (R103). -/
  | ldVxK (x : Reg)
  /-- Fx15, write the delay timer (R99). -/
  | ldDtVx (x : Reg)
  /-- Fx18, write the sound timer (R100). -/
  | ldStVx (x : Reg)
  /-- Fx1E, add register to index (R86). -/
  | addIVx (x : Reg)
  /-- Fx29, point I at a font glyph (R87). -/
  | ldFVx (x : Reg)
  /-- Fx33, store BCD (R88). -/
  | ldBVx (x : Reg)
  /-- Fx55, store V0..Vx at I (R89). -/
  | ldMemVx (x : Reg)
  /-- Fx65, load V0..Vx from I (R90). -/
  | ldVxMem (x : Reg)
  deriving DecidableEq, Repr

end Sys2Proof
end

