-- ==== Sys2Proof/WellFormed.lean ====
section
/-! DEFINITION. Which terms of `Instr` are instructions of the machine. Register numbers and immediates cannot be out of
range: their types are the 4-, 8- and 12-bit fields of spec 30_encoding.md R47 ("malformed register indices cannot occur",
R118). The one check is the sprite height of Dxyn. -/

namespace Sys2Proof

/-- Well-formed: the row count of Dxyn fits its 4-bit field, 0..15 (R47, R49, R94). -/
def Instr.wf : Instr → Bool
  | .drw _ _ n => decide (n < 16)
  | _ => true

/-- The same as a proposition. -/
abbrev Instr.WellFormed (i : Instr) : Prop := i.wf = true

end Sys2Proof
end

