-- ==== Sys2Proof/Decode.lean ====
section
/-! DEFINITION. From bytes to instructions and back (spec 30_encoding.md). The decoder dispatches on the nibbles as R51 says,
matching every printed hexadecimal digit of a pattern (R52, decision D17, log entry 21); the encoder is written from the same
table; `opcodeTable` is the table's mask and match columns as data. -/

namespace Sys2Proof

/-! ### Fields of a word (R47) -/

/-- `op = w[15:12]`, the leading nibble. -/
def opField (w : Word) : BitVec 4 := w.extractLsb' 12 4

/-- `x = w[11:8]`, register-X. -/
def xField (w : Word) : Reg := (w.extractLsb' 8 4).toFin

/-- `y = w[7:4]`, register-Y. -/
def yField (w : Word) : Reg := (w.extractLsb' 4 4).toFin

/-- `n = w[3:0]`, the trailing nibble. -/
def nField (w : Word) : BitVec 4 := w.extractLsb' 0 4

/-- `nn = w[7:0]`, the low byte. -/
def nnField (w : Word) : Byte := w.extractLsb' 0 8

/-- `nnn = w[11:0]`, the low 12 bits. -/
def nnnField (w : Word) : Imm12 := w.extractLsb' 0 12

/-- The instruction word of two bytes, the first being the high byte (big-endian combine, R36, R46). -/
def assembleWord (hi lo : Byte) : Word := hi ++ lo

/-- The byte of a word that lies at the lower address (R36). -/
def highByte (w : Word) : Byte := w.extractLsb' 8 8

/-- The byte of a word that lies at the higher address (R36). -/
def lowByte (w : Word) : Byte := w.extractLsb' 0 8

/-! ### Decoding -/

/-- Why bytes are not an instruction. -/
inductive DecodeError where
  /-- The word matches no row of the opcode table (R53). -/
  | unrecognised (w : Word)
  /-- Fewer than two bytes; every instruction is exactly two (R45). -/
  | truncated
  deriving DecidableEq, Repr

/-- Leading nibble 0: all 16 bits are fixed (R51, R54). -/
def decode0 (w : Word) : Except DecodeError Instr :=
  match w with
  | 0x00E0#16 => .ok .cls
  | 0x00EE#16 => .ok .ret
  | _ => .error (.unrecognised w)

/-- Leading nibble 5: the trailing nibble is 0 (R65). -/
def decode5 (w : Word) : Except DecodeError Instr :=
  match nField w with
  | 0x0#4 => .ok (.seVxVy (xField w) (yField w))
  | _ => .error (.unrecognised w)

/-- Leading nibble 8: the trailing nibble selects (R73 to R81). -/
def decode8 (w : Word) : Except DecodeError Instr :=
  match nField w with
  | 0x0#4 => .ok (.ldVxVy (xField w) (yField w))
  | 0x1#4 => .ok (.orVxVy (xField w) (yField w))
  | 0x2#4 => .ok (.andVxVy (xField w) (yField w))
  | 0x3#4 => .ok (.xorVxVy (xField w) (yField w))
  | 0x4#4 => .ok (.addVxVy (xField w) (yField w))
  | 0x5#4 => .ok (.subVxVy (xField w) (yField w))
  | 0x6#4 => .ok (.shrVxVy (xField w) (yField w))
  | 0x7#4 => .ok (.subnVxVy (xField w) (yField w))
  | 0xE#4 => .ok (.shlVxVy (xField w) (yField w))
  | _ => .error (.unrecognised w)

/-- Leading nibble 9: the trailing nibble is 0 (R66). -/
def decode9 (w : Word) : Except DecodeError Instr :=
  match nField w with
  | 0x0#4 => .ok (.sneVxVy (xField w) (yField w))
  | _ => .error (.unrecognised w)

/-- Leading nibble E: the whole low byte selects (R101, R102). -/
def decodeE (w : Word) : Except DecodeError Instr :=
  match nnField w with
  | 0x9E#8 => .ok (.skp (xField w))
  | 0xA1#8 => .ok (.sknp (xField w))
  | _ => .error (.unrecognised w)

/-- Leading nibble F: the whole low byte selects (R86 to R90, R98 to R103). -/
def decodeF (w : Word) : Except DecodeError Instr :=
  match nnField w with
  | 0x07#8 => .ok (.ldVxDt (xField w))
  | 0x0A#8 => .ok (.ldVxK (xField w))
  | 0x15#8 => .ok (.ldDtVx (xField w))
  | 0x18#8 => .ok (.ldStVx (xField w))
  | 0x1E#8 => .ok (.addIVx (xField w))
  | 0x29#8 => .ok (.ldFVx (xField w))
  | 0x33#8 => .ok (.ldBVx (xField w))
  | 0x55#8 => .ok (.ldMemVx (xField w))
  | 0x65#8 => .ok (.ldVxMem (xField w))
  | _ => .error (.unrecognised w)

/-- The instruction a word is, or its rejection by name (R51 to R55). The last arm is leading nibble F. -/
def decodeWord (w : Word) : Except DecodeError Instr :=
  match opField w with
  | 0x0#4 => decode0 w
  | 0x1#4 => .ok (.jp (nnnField w))
  | 0x2#4 => .ok (.call (nnnField w))
  | 0x3#4 => .ok (.seVxNn (xField w) (nnField w))
  | 0x4#4 => .ok (.sneVxNn (xField w) (nnField w))
  | 0x5#4 => decode5 w
  | 0x6#4 => .ok (.ldVxNn (xField w) (nnField w))
  | 0x7#4 => .ok (.addVxNn (xField w) (nnField w))
  | 0x8#4 => decode8 w
  | 0x9#4 => decode9 w
  | 0xA#4 => .ok (.ldINnn (nnnField w))
  | 0xB#4 => .ok (.jpV0Nnn (nnnField w))
  | 0xC#4 => .ok (.rndVxNn (xField w) (nnField w))
  | 0xD#4 => .ok (.drw (xField w) (yField w) (nField w).toNat)
  | 0xE#4 => decodeE w
  | _ => decodeF w

/-- Decoding any bytes: the instruction of the first two and the bytes after it (R45). -/
def decode : List Byte → Except DecodeError (Instr × List Byte)
  | hi :: lo :: rest =>
    match decodeWord (assembleWord hi lo) with
    | .ok i => .ok (i, rest)
    | .error e => .error e
  | _ => .error .truncated

/-- The decoder on an instruction numbered as spec/opcode_table.json numbers its bits: the table's one 16-bit word, bits
above `nbits` being zero, laid out high byte first (R36) and given to `decode`. -/
def decodeTableWord (nbits w : Nat) : Option Instr :=
  let word : Word := BitVec.ofNat 16 (w % 2 ^ nbits)
  match decode [highByte word, lowByte word] with
  | .ok (i, _) => some i
  | .error _ => none

/-! ### Encoding -/

/-- Format A: `op`, `nnn` (R48). -/
def formatA (op : BitVec 4) (nnn : Imm12) : Word := op ++ nnn

/-- Formats I and S: `op`, `x`, low byte (R48). -/
def formatI (op : BitVec 4) (x : Reg) (nn : Byte) : Word := op ++ (BitVec.ofFin x : BitVec 4) ++ nn

/-- Formats R and D: `op`, `x`, `y`, trailing nibble (R48). -/
def formatR (op : BitVec 4) (x y : Reg) (n : BitVec 4) : Word :=
  op ++ (BitVec.ofFin x : BitVec 4) ++ (BitVec.ofFin y : BitVec 4) ++ n

/-- The word of a well-formed instruction (R48, R51). -/
def encode : Instr → Word
  | .cls => 0x00E0
  | .ret => 0x00EE
  | .jp nnn => formatA 0x1 nnn
  | .call nnn => formatA 0x2 nnn
  | .seVxNn x nn => formatI 0x3 x nn
  | .sneVxNn x nn => formatI 0x4 x nn
  | .seVxVy x y => formatR 0x5 x y 0x0
  | .ldVxNn x nn => formatI 0x6 x nn
  | .addVxNn x nn => formatI 0x7 x nn
  | .ldVxVy x y => formatR 0x8 x y 0x0
  | .orVxVy x y => formatR 0x8 x y 0x1
  | .andVxVy x y => formatR 0x8 x y 0x2
  | .xorVxVy x y => formatR 0x8 x y 0x3
  | .addVxVy x y => formatR 0x8 x y 0x4
  | .subVxVy x y => formatR 0x8 x y 0x5
  | .shrVxVy x y => formatR 0x8 x y 0x6
  | .subnVxVy x y => formatR 0x8 x y 0x7
  | .shlVxVy x y => formatR 0x8 x y 0xE
  | .sneVxVy x y => formatR 0x9 x y 0x0
  | .ldINnn nnn => formatA 0xA nnn
  | .jpV0Nnn nnn => formatA 0xB nnn
  | .rndVxNn x nn => formatI 0xC x nn
  | .drw x y n => formatR 0xD x y (BitVec.ofNat 4 n)
  | .skp x => formatI 0xE x 0x9E
  | .sknp x => formatI 0xE x 0xA1
  | .ldVxDt x => formatI 0xF x 0x07
  | .ldVxK x => formatI 0xF x 0x0A
  | .ldDtVx x => formatI 0xF x 0x15
  | .ldStVx x => formatI 0xF x 0x18
  | .addIVx x => formatI 0xF x 0x1E
  | .ldFVx x => formatI 0xF x 0x29
  | .ldBVx x => formatI 0xF x 0x33
  | .ldMemVx x => formatI 0xF x 0x55
  | .ldVxMem x => formatI 0xF x 0x65

/-- The bytes of an instruction in memory order (R36). -/
def encodeBytes (i : Instr) : List Byte := [highByte (encode i), lowByte (encode i)]

/-! ### The opcode table's mask and match columns (R51) -/

/-- One row: word `w` is this instruction exactly when `w AND mask = pattern` (R51). -/
structure OpcodeRow where
  mnemonic : String
  mask : Word
  pattern : Word
  deriving DecidableEq, Repr

/-- A word matches a row (R51). -/
def OpcodeRow.accepts (r : OpcodeRow) (w : Word) : Bool := w &&& r.mask == r.pattern

/-- The row an instruction is listed under; its operands do not matter. -/
def Instr.row : Instr → OpcodeRow
  | .cls => ⟨"CLS", 0xFFFF, 0x00E0⟩
  | .ret => ⟨"RET", 0xFFFF, 0x00EE⟩
  | .jp _ => ⟨"JP_nnn", 0xF000, 0x1000⟩
  | .call _ => ⟨"CALL_nnn", 0xF000, 0x2000⟩
  | .seVxNn _ _ => ⟨"SE_Vx__nn", 0xF000, 0x3000⟩
  | .sneVxNn _ _ => ⟨"SNE_Vx__nn", 0xF000, 0x4000⟩
  | .seVxVy _ _ => ⟨"SE_Vx__Vy", 0xF00F, 0x5000⟩
  | .ldVxNn _ _ => ⟨"LD_Vx__nn", 0xF000, 0x6000⟩
  | .addVxNn _ _ => ⟨"ADD_Vx__nn", 0xF000, 0x7000⟩
  | .ldVxVy _ _ => ⟨"LD_Vx__Vy", 0xF00F, 0x8000⟩
  | .orVxVy _ _ => ⟨"OR_Vx__Vy", 0xF00F, 0x8001⟩
  | .andVxVy _ _ => ⟨"AND_Vx__Vy", 0xF00F, 0x8002⟩
  | .xorVxVy _ _ => ⟨"XOR_Vx__Vy", 0xF00F, 0x8003⟩
  | .addVxVy _ _ => ⟨"ADD_Vx__Vy", 0xF00F, 0x8004⟩
  | .subVxVy _ _ => ⟨"SUB_Vx__Vy", 0xF00F, 0x8005⟩
  | .shrVxVy _ _ => ⟨"SHR_Vx__Vy", 0xF00F, 0x8006⟩
  | .subnVxVy _ _ => ⟨"SUBN_Vx__Vy", 0xF00F, 0x8007⟩
  | .shlVxVy _ _ => ⟨"SHL_Vx__Vy", 0xF00F, 0x800E⟩
  | .sneVxVy _ _ => ⟨"SNE_Vx__Vy", 0xF00F, 0x9000⟩
  | .ldINnn _ => ⟨"LD_I__nnn", 0xF000, 0xA000⟩
  | .jpV0Nnn _ => ⟨"JP_V0__nnn", 0xF000, 0xB000⟩
  | .rndVxNn _ _ => ⟨"RND_Vx__nn", 0xF000, 0xC000⟩
  | .drw _ _ _ => ⟨"DRW_Vx__Vy__n", 0xF000, 0xD000⟩
  | .skp _ => ⟨"SKP_Vx", 0xF0FF, 0xE09E⟩
  | .sknp _ => ⟨"SKNP_Vx", 0xF0FF, 0xE0A1⟩
  | .ldVxDt _ => ⟨"LD_Vx__DT", 0xF0FF, 0xF007⟩
  | .ldVxK _ => ⟨"LD_Vx__K", 0xF0FF, 0xF00A⟩
  | .ldDtVx _ => ⟨"LD_DT__Vx", 0xF0FF, 0xF015⟩
  | .ldStVx _ => ⟨"LD_ST__Vx", 0xF0FF, 0xF018⟩
  | .addIVx _ => ⟨"ADD_I__Vx", 0xF0FF, 0xF01E⟩
  | .ldFVx _ => ⟨"LD_F__Vx", 0xF0FF, 0xF029⟩
  | .ldBVx _ => ⟨"LD_B__Vx", 0xF0FF, 0xF033⟩
  | .ldMemVx _ => ⟨"LD__I___Vx", 0xF0FF, 0xF055⟩
  | .ldVxMem _ => ⟨"LD_Vx___I", 0xF0FF, 0xF065⟩

/-- The 34 rows, in the table's order. -/
def opcodeTable : List OpcodeRow :=
  [Instr.row .cls, Instr.row .ret, Instr.row (.jp 0), Instr.row (.call 0),
       Instr.row (.seVxNn 0 0), Instr.row (.sneVxNn 0 0), Instr.row (.seVxVy 0 0), Instr.row (.ldVxNn 0 0),
       Instr.row (.addVxNn 0 0)]
    ++ [Instr.row (.ldVxVy 0 0), Instr.row (.orVxVy 0 0), Instr.row (.andVxVy 0 0), Instr.row (.xorVxVy 0 0),
       Instr.row (.addVxVy 0 0), Instr.row (.subVxVy 0 0), Instr.row (.shrVxVy 0 0), Instr.row (.subnVxVy 0 0),
       Instr.row (.shlVxVy 0 0)]
    ++ [Instr.row (.sneVxVy 0 0), Instr.row (.ldINnn 0), Instr.row (.jpV0Nnn 0), Instr.row (.rndVxNn 0 0),
       Instr.row (.drw 0 0 0), Instr.row (.skp 0), Instr.row (.sknp 0), Instr.row (.ldVxDt 0)]
    ++ [Instr.row (.ldVxK 0), Instr.row (.ldDtVx 0), Instr.row (.ldStVx 0), Instr.row (.addIVx 0),
       Instr.row (.ldFVx 0), Instr.row (.ldBVx 0), Instr.row (.ldMemVx 0), Instr.row (.ldVxMem 0)]

end Sys2Proof
end

