-- ==== Sys2Proof/Config.lean ====
section
/-! DEFINITION. What an implementation fixes and the spec leaves open, each an opaque constant, so that no proof can
rest on a value of it; and the variant selector's values. -/

namespace Sys2Proof.Config

/-- `FONT_BASE`, open: any address with `FONT_BASE + 80 <= 0x200` (spec 00_scope.md R6, 20_memory.md R31, decision D13).
The type is the constraint: 432 + 80 = 0x200. DESIGN CHOICE, safe, log entry 3. -/
opaque fontBase : Fin 433

/-- `FONT_TABLE`, open: 80 glyph bytes (spec 00_scope.md R6, 20_memory.md R32, decision D13). DESIGN CHOICE, safe, log entry 4. -/
opaque fontTable : Vector Byte 80

/-- The random byte of the n-th execution of Cxnn: a free value under no law (spec 41_alu.md R82, 45_host_transactions.md R115,
decision D20). DESIGN CHOICE, safe, log entry 2. -/
opaque randomByte : Nat → Byte

/-- `KEYWAIT_PICK`, open: which member of the set of released keys Fx0A reports (spec 44_timer_input.md R103, decision D8).
The value is taken modulo the set's size, so every choice function is one value of this constant and every value is a choice.
DESIGN CHOICE, safe, log entry 7. -/
opaque keywaitPick : List Key → Nat

end Sys2Proof.Config
end

