-- ==== Sys2Proof/Machine/State.lean ====
section
/-! DEFINITION. The state of one core, as the tuple of spec 10_state.md R10, the reasons a Step can stop
(60_exceptions.md R118), and the state after construction (10_state.md R26). -/

namespace Sys2Proof.Machine

/-- The hardware variant, fixed at construction (R5, R21). What it changes is in Machine/Params.lean. -/
inductive Variant where
  /-- "Original". -/
  | original
  /-- "Super-CHIP-style". -/
  | superChip
  /-- "an extended mode". -/
  | extended
  deriving DecidableEq, Repr, Inhabited

/-- The causes that halt the core for good (R118). -/
inductive Fault where
  /-- Raised by 00EE when the stack is empty; the source itself calls it fatal (R60, R119). Safe: the spec's own halt. -/
  | stackUnderflow
  /-- Raised by the fetch, Dxyn, Fx33, Fx55 and Fx65 with the first accessed address above 0xFFF (R35, R120). The source
  leaves the access undefined and the spec faults (decision D4). Safe, log entry 16. -/
  | addressOutOfRange (addr : Nat)
  /-- Raised by Ex9E and ExA1 with the value of `V[x]` when it exceeds 15 (R104, R121, decision D7). Safe, log entry 17. -/
  | keyIndexOutOfRange (k : Byte)
  /-- Raised by 2nnn in a build with a finite `STACK_CAPACITY` when the stack is full (R62, R122, decision D16); never with the
  source's unbounded stack. Safe, log entry 6. -/
  | stackOverflow
  deriving DecidableEq, Repr, Inhabited

/-- What the model gives no meaning to. -/
inductive Refusal where
  /-- Raised by an arm of `exec` for an instruction without a meaning yet. Safe. No arm does so. -/
  | notModelled (mnemonic : String)
  /-- Raised by the LoadROM transaction for a ROM longer than 3584 bytes, which the spec puts outside the model (R107,
  decision D19). Safe, log entry 11. -/
  | romTooLong (length : Nat)
  /-- Raised by every transaction but Step and Construct on a faulted core, to which the spec gives no meaning (R124,
  decision D31). Safe, log entry 10. -/
  | noMeaningWhenFaulted (cause : Fault)
  deriving DecidableEq, Repr

/-- The halt latch (R23). -/
inductive Status where
  | running
  | faulted (cause : Fault)
  deriving DecidableEq, Repr, Inhabited

/-- The bytes of `mem` that differ from their reset contents, addresses strictly rising (R16, R30). What an unlisted
address reads as is `initialByte` of Machine/Ops.lean. -/
abbrev Memory := List Host.Cell

/-- The 64 × 32 grid of pixels, `fb[row][col]`, row 0 at the top, column 0 at the left (R17). -/
abbrev Framebuffer := Vector (Vector Bool 64) 32

/-- The complete state of one core (R10), and `draws`, the model's own. -/
structure State where
  /-- `mem`, the only addressable memory (R16). -/
  mem : Memory
  /-- `V[0]`..`V[15]` (R11); `V[15]` is VF (R12). -/
  V : Vector Byte 16
  /-- The program counter (R13). -/
  pc : Word
  /-- The index register (R14). -/
  I : Word
  /-- The return addresses, the last one pushed FIRST (R15; log entry 13). -/
  stack : List Word
  /-- The framebuffer (R17). -/
  fb : Framebuffer
  /-- The display-dirty flag (R18). -/
  dirty : Bool
  /-- The delay timer (R19). -/
  dt : Byte
  /-- The sound timer (R19). -/
  st : Byte
  /-- `key_cur[k]`: key `k` is held now (R20). -/
  keyCur : Vector Bool 16
  /-- `key_prev[k]`: what `key_cur[k]` was at the last KeySnapshot (R20). -/
  keyPrev : Vector Bool 16
  /-- A ROM has been written (R22). -/
  loaded : Bool
  /-- The halt latch (R23). -/
  status : Status
  /-- The variant selector (R21). -/
  variant : Variant
  /-- THE MODEL'S OWN: how many random bytes have been drawn, which only selects the next free value
  `Config.randomByte draws` (R82, R115; log entry 2). -/
  draws : Nat
  deriving DecidableEq, Repr, Inhabited

/-- Every pixel off. -/
def Framebuffer.blank : Framebuffer := Vector.replicate 32 (Vector.replicate 64 false)

/-- The state after `Construct(v)` (R26, R135). -/
def State.construct (v : Variant) : State where
  mem := []
  V := Vector.replicate 16 0
  pc := 0x0200
  I := 0
  stack := []
  fb := Framebuffer.blank
  dirty := false
  dt := 0
  st := 0
  keyCur := Vector.replicate 16 false
  keyPrev := Vector.replicate 16 false
  loaded := false
  status := .running
  variant := v
  draws := 0

/-- The machine right after reset: the spec's construction, which takes the variant as an argument. The Original variant
is the model's choice here: DESIGN CHOICE, unsafe, log entry 1. -/
def State.reset : State := State.construct .original

end Sys2Proof.Machine
end

