-- ==== Sys2Proof/Machine/Params.lean ====
section
/-! DEFINITION. The parameters of the hardware: the variant policy table (spec 00_scope.md R5) and the values of R6. -/

namespace Sys2Proof.Machine

/-! ### The four knobs of R5 -/

/-- `LOGIC_RESETS_VF`, consulted by 8xy1, 8xy2, 8xy3. -/
def Variant.logicResetsVF : Variant → Bool
  | .original => true
  | .superChip => false
  | .extended => false

/-- `SHIFT_COPIES_VY`, consulted by 8xy6, 8xyE. -/
def Variant.shiftCopiesVy : Variant → Bool
  | .original => true
  | .superChip => false
  | .extended => true

/-- `BLOCK_INCREMENTS_I`, consulted by Fx55, Fx65. -/
def Variant.blockIncrementsI : Variant → Bool
  | .original => true
  | .superChip => false
  | .extended => true

/-- `JUMP_USES_VX`, consulted by Bnnn. -/
def Variant.jumpUsesVx : Variant → Bool
  | .original => false
  | .superChip => true
  | .extended => false

/-! ### Values of R6 -/

/-- `MEM_SIZE`: addresses 0x000..0xFFF. -/
def memSize : Nat := 4096

/-- `PROG_START`: where a ROM is written and where `pc` starts. -/
def progStart : Nat := 0x200

/-- `ROM_MAX = MEM_SIZE - PROG_START`. -/
def romMax : Nat := memSize - progStart

/-- `DRAW_X_MOD`. -/
def drawXMod : Nat := 64

/-- `DRAW_Y_MOD`: the source's value. UNVERIFIED, unsafe, log entry 5 (decision D14, conflict C12). -/
def drawYMod : Nat := 64

/-- `STACK_CAPACITY`: `none` is the source's unbounded stack (decision D16). UNVERIFIED, safe, log entry 6. -/
def stackCapacity : Option Nat := none

/-- `FONT_BASE` as an address (open, log entry 3). -/
def fontBase : Nat := Config.fontBase.val

/-- `FONT_TABLE[i]` (open, log entry 4). -/
def fontByte (i : Fin 80) : Byte := Config.fontTable[i]

end Sys2Proof.Machine
end

