-- ==== Sys2Proof/Machine/Ops.lean ====
section
/-! DEFINITION. The named operations over the state: memory, registers, stack, the access primitives of spec
20_memory.md R33 to R35, and what a fault does (60_exceptions.md R124). -/

namespace Sys2Proof.Machine

/-! ### Memory as a canonical list -/

/-- What an unlisted address reads as: its contents after construction (R26, R31, R32), zero but for the font table at
`FONT_BASE` .. `FONT_BASE + 79`, which lies below `PROG_START`. -/
def initialByte (a : Nat) : Byte :=
  if progStart ≤ a then 0
  else if h : fontBase ≤ a ∧ a - fontBase < 80 then fontByte ⟨a - fontBase, h.2⟩
  else 0

/-- The byte at an address. -/
def Memory.read : Memory → Nat → Byte
  | [], a => initialByte a
  | (k, b) :: m, a => if k = a then b else Memory.read m a

/-- The list without an entry for `a`. -/
def Memory.erase : Memory → Nat → Memory
  | [], _ => []
  | (k, c) :: m, a => if k = a then m else (k, c) :: Memory.erase m a

/-- The list with the entry `(a, b)`, in its place by address. -/
def Memory.insert : Memory → Nat → Byte → Memory
  | [], a, b => [(a, b)]
  | (k, c) :: m, a, b =>
    if a < k then (a, b) :: (k, c) :: m
    else if k = a then (a, b) :: m
    else (k, c) :: Memory.insert m a b

/-- Writing a byte; writing the reset contents removes the entry, so that equal memories are equal lists. -/
def Memory.write (m : Memory) (a : Nat) (b : Byte) : Memory :=
  if b = initialByte a then m.erase a else m.insert a b

/-- The canonical form: addresses strictly rising, inside the address space (R30), and no entry equal to what its
address reads as when unlisted. -/
abbrev Memory.wf (m : Memory) : Prop :=
  m.Pairwise (fun p q => p.1 < q.1) ∧ ∀ p ∈ m, p.1 < memSize ∧ p.2 ≠ initialByte p.1

/-! ### Writing one component -/

/-- `V[r]` (R11). -/
def State.getV (s : State) (r : Reg) : Byte := s.V[r]

/-- `V[r] <- b` (R11). -/
def State.setV (s : State) (r : Reg) (b : Byte) : State := { s with V := s.V.set r b }

/-- The whole register file written at once. -/
def State.setRegs (s : State) (v : Vector Byte 16) : State := { s with V := v }

/-- `pc <- w` (R13). -/
def State.setPc (s : State) (w : Word) : State := { s with pc := w }

/-- `I <- w` (R14). -/
def State.setI (s : State) (w : Word) : State := { s with I := w }

/-- The call stack written at once. -/
def State.setStack (s : State) (l : List Word) : State := { s with stack := l }

/-- The framebuffer written at once. -/
def State.setFb (s : State) (f : Framebuffer) : State := { s with fb := f }

/-- `dirty <- b` (R18). -/
def State.setDirty (s : State) (b : Bool) : State := { s with dirty := b }

/-- `dt <- b` (R19). -/
def State.setDt (s : State) (b : Byte) : State := { s with dt := b }

/-- `st <- b` (R19). -/
def State.setSt (s : State) (b : Byte) : State := { s with st := b }

/-- The memory written at once. -/
def State.setMem (s : State) (m : Memory) : State := { s with mem := m }

/-- The model's own count of random bytes. -/
def State.setDraws (s : State) (n : Nat) : State := { s with draws := n }

/-- `fb[row][col]` (R17). -/
def State.pixel (s : State) (row : Fin 32) (col : Fin 64) : Bool := s.fb[row][col]

/-! ### Access primitives -/

/-- `MemRead(addr, 1)` (R33): the byte, or `AddressOutOfRange` above 0xFFF (R35). -/
def memRead (a : Nat) (s : State) : Except Fault Byte :=
  if a < memSize then .ok (s.mem.read a) else .error (.addressOutOfRange a)

/-- `MemWrite(addr, 1, v)` (R34): one cell written, or `AddressOutOfRange` above 0xFFF (R35). -/
def memWrite (a : Nat) (b : Byte) (s : State) : Except Fault State :=
  if a < memSize then .ok (s.setMem (s.mem.write a b)) else .error (.addressOutOfRange a)

/-- `n` bytes from `a` up, in ascending address order, the first offending address faulting (R33, R38, R126). -/
def loadBytes : (n a : Nat) → State → Except Fault (List Byte)
  | 0, _, _ => .ok []
  | n + 1, a, s =>
    match memRead a s with
    | .error c => .error c
    | .ok b =>
      match loadBytes n (a + 1) s with
      | .error c => .error c
      | .ok bs => .ok (b :: bs)

/-- Bytes stored from `a` up, in ascending address order, the first offending address faulting (R34, R38, R126). -/
def storeBytes : (bs : List Byte) → (a : Nat) → State → Except Fault State
  | [], _, s => .ok s
  | b :: bs, a, s =>
    match memWrite a b s with
    | .error c => .error c
    | .ok s' => storeBytes bs (a + 1) s'

/-- Registers from number `k` up receive the bytes in order (R90). -/
def fillRegs : (bs : List Byte) → (k : Nat) → Vector Byte 16 → Vector Byte 16
  | [], _, v => v
  | b :: bs, k, v => fillRegs bs (k + 1) (if h : k < 16 then v.set k b else v)

/-! ### Call stack (R15) -/

/-- Push a return address, in a build whose stack holds at most `capacity` entries, `none` being unbounded (R62, R122). -/
def pushReturn (capacity : Option Nat) (w : Word) (s : State) : Except Fault State :=
  match capacity with
  | none => .ok (s.setStack (w :: s.stack))
  | some n => if s.stack.length < n then .ok (s.setStack (w :: s.stack)) else .error .stackOverflow

/-- Pop the return address pushed last into `pc` (R60). -/
def popReturn (s : State) : Except Fault State :=
  match s.stack with
  | [] => .error .stackUnderflow
  | w :: rest => .ok ((s.setStack rest).setPc w)

/-! ### The random input (R115) -/

/-- `draw_byte()`: the byte this draw gives, a free value (R7, R82; log entry 2). -/
def State.drawnByte (s : State) : Byte := Config.randomByte s.draws

/-! ### Faults (R124) -/

/-- A fault with cause `c` ends the Step: nothing is saved, no vector is taken, no handler runs (R124). The cause is the
outcome; the halted core itself is `State.halted`. Log entry 8. -/
def raise (c : Fault) : Host.Outcome State Fault Refusal := .fault c

/-- What the components other than `status` hold in a faulted core: no architected value (R124), so free values.
DESIGN CHOICE, safe, log entry 8. -/
opaque afterFault : State → State

/-- The core a fault leaves: `status <- Faulted(c)`, the variant as constructed (R21), and no architected value anywhere else
(R124). -/
def State.halted (s : State) (c : Fault) : State :=
  { afterFault s with status := .faulted c, variant := s.variant }

/-- How a meaning ends: the state it reached, or the fault it raised. -/
def finish (r : Except Fault State) : Host.Outcome State Fault Refusal :=
  match r with
  | .ok s => .next s
  | .error c => raise c

/-! ### The parts of a Step before the instruction (R50) -/

/-- Step 2: the word at `pc`, two byte reads of which the first is the high byte (R36, R46). -/
def fetch (s : State) : Except Fault (Byte × Byte) :=
  match memRead s.pc.toNat s with
  | .error c => .error c
  | .ok hi =>
    match memRead (s.pc.toNat + 1) s with
    | .error c => .error c
    | .ok lo => .ok (hi, lo)

/-- Steps 1 and 3: `dirty <- 0` (decision D15, log entry 20) and `pc <- pc +_16 2` (decision D25). Every instruction runs from here. -/
def State.advanced (s : State) : State := { s with dirty := false, pc := s.pc + 2 }

end Sys2Proof.Machine
end

