-- ==== Sys2Proof/Machine/Flags.lean ====
section
/-! DEFINITION. The values written to VF as a flag (spec 10_state.md R12, 41_alu.md R83), and the order of the writes
(R70). -/

namespace Sys2Proof.Machine

/-- A flag as the byte VF receives: 1 or 0. -/
def flagByte (b : Bool) : Byte := if b then 1 else 0

/-- Carry of 8xy4: the true sum exceeds 255 (R77). -/
def carryFlag (a b : Byte) : Bool := decide (a.toNat + b.toNat > 255)

/-- No borrow, of 8xy5 and 8xy7: the minuend is at least the subtrahend (R78, R80, decision D29). -/
def notBorrowFlag (m s : Byte) : Bool := decide (s.toNat ≤ m.toNat)

/-- The bit 8xy6 shifts out (R79). -/
def shrFlag (t : Byte) : Bool := t.getLsbD 0

/-- The bit 8xyE shifts out (R81). -/
def shlFlag (t : Byte) : Bool := t.getLsbD 7

/-- The writes of an instruction with a flag output: the result to `V[x]`, then the flag to VF, last (R70, decision D9,
log entry 18). -/
def writeWithFlag (x : Reg) (result : Byte) (flag : Bool) (s : State) : State :=
  (s.setV x result).setV vf (flagByte flag)

/-- The writes of a logic instruction: the result, then VF reset to 0 when `LOGIC_RESETS_VF` (R74 to R76, R70). -/
def writeLogic (x : Reg) (result : Byte) (s : State) : State :=
  if s.variant.logicResetsVF then (s.setV x result).setV vf 0 else s.setV x result

end Sys2Proof.Machine
end

