-- ==== Sys2Proof/Machine/Operands.lean ====
section
/-! DEFINITION. The operand forms: immediates and registers widened, effective addresses, the variant-dependent operands,
decimal digits, glyph addresses, key numbers and released keys. -/

namespace Sys2Proof.Machine

/-- `zext_16(nnn)` (R49). -/
def zextImm (nnn : Imm12) : Word := nnn.setWidth 16

/-- `zext_16(V[x])` (R49). -/
def zextByte (b : Byte) : Word := b.setWidth 16

/-- The base address of a memory instruction: the full 16-bit `I` as a natural number (R91). -/
def baseAddress (s : State) : Nat := s.I.toNat

/-- What 8xy6 and 8xyE shift: `V[y]` when `SHIFT_COPIES_VY`, else `V[x]` (R79, R81). -/
def shiftOperand (x y : Reg) (s : State) : Byte :=
  if s.variant.shiftCopiesVy then s.getV y else s.getV x

/-- The register that offsets Bnnn: `V[x]` with `x = nnn[11:8]` when `JUMP_USES_VX`, else `V[0]` (R67, decision D21,
log entry 22). -/
def jumpOffsetReg (nnn : Imm12) (s : State) : Reg :=
  if s.variant.jumpUsesVx then (nnn.extractLsb' 8 4).toFin else 0

/-- The three decimal digits of a byte, hundreds first, each in its own byte (R88). -/
def decimalDigits (b : Byte) : List Byte :=
  [BitVec.ofNat 8 (b.toNat / 100), BitVec.ofNat 8 (b.toNat / 10 % 10), BitVec.ofNat 8 (b.toNat % 10)]

/-- `FONT_BASE + 5 × (V[x] AND 0x0F)` (R87). -/
def glyphAddress (b : Byte) : Word := BitVec.ofNat 16 (fontBase + 5 * (b &&& 0x0F).toNat)

/-- `V[0]`..`V[x]`, in order (R89). -/
def regsUpTo (x : Reg) (s : State) : List Byte := s.V.toList.take (x.val + 1)

/-- `I` after a block transfer of `V[0]`..`V[x]`: advanced by `x + 1` when `BLOCK_INCREMENTS_I` (R89, R90). -/
def blockEndI (x : Reg) (s : State) : Word :=
  if s.variant.blockIncrementsI then s.I + BitVec.ofNat 16 (x.val + 1) else s.I

/-- The key a register names: its full 8-bit value, which faults above 15 (R104, decision D7, log entry 17). -/
def keyOperand (b : Byte) : Except Fault Key :=
  if h : b.toNat < 16 then .ok ⟨b.toNat, h⟩ else .error (.keyIndexOutOfRange b)

/-- Key `k` has a falling edge: held in the previous latch and not in the current one (R103). -/
def fallingEdge (s : State) (k : Key) : Bool := s.keyPrev[k] && !s.keyCur[k]

/-- `E`, the keys with a falling edge, in ascending order (R103). -/
def releasedKeys (s : State) : List Key := (List.finRange 16).filter (fallingEdge s)

/-- `KEYWAIT_PICK` on the set `k :: ks`: some member of it, which one being open (R103, decision D8, log entry 7). With one
member the result is that member. -/
def keywaitPick (k : Key) (ks : List Key) : Key :=
  match ks with
  | [] => k
  | _ :: _ => (k :: ks).getD (Config.keywaitPick (k :: ks) % (k :: ks).length) k

end Sys2Proof.Machine
end

