-- ==== Sys2Proof/Machine/Alu.lean ====
section
/-! DEFINITION. Register and arithmetic instructions (spec 41_alu.md). On entry `pc` is already `a + 2` and stays so; none
of them can fault. Sources are read from the state on entry, the result is written, VF last (R70). -/

namespace Sys2Proof.Machine

/-- 6xnn LD Vx, nn (R71). -/
def execLdVxNn (x : Reg) (nn : Byte) (s : State) : Host.Outcome State Fault Refusal := .next (s.setV x nn)

/-- 7xnn ADD Vx, nn, no flag (R72). -/
def execAddVxNn (x : Reg) (nn : Byte) (s : State) : Host.Outcome State Fault Refusal := .next (s.setV x (s.getV x + nn))

/-- 8xy0 LD Vx, Vy (R73). -/
def execLdVxVy (x y : Reg) (s : State) : Host.Outcome State Fault Refusal := .next (s.setV x (s.getV y))

/-- 8xy1 OR Vx, Vy (R74). -/
def execOrVxVy (x y : Reg) (s : State) : Host.Outcome State Fault Refusal :=
  .next (writeLogic x (s.getV x ||| s.getV y) s)

/-- 8xy2 AND Vx, Vy (R75). -/
def execAndVxVy (x y : Reg) (s : State) : Host.Outcome State Fault Refusal :=
  .next (writeLogic x (s.getV x &&& s.getV y) s)

/-- 8xy3 XOR Vx, Vy (R76). -/
def execXorVxVy (x y : Reg) (s : State) : Host.Outcome State Fault Refusal :=
  .next (writeLogic x (s.getV x ^^^ s.getV y) s)

/-- 8xy4 ADD Vx, Vy (R77). -/
def execAddVxVy (x y : Reg) (s : State) : Host.Outcome State Fault Refusal :=
  .next (writeWithFlag x (s.getV x + s.getV y) (carryFlag (s.getV x) (s.getV y)) s)

/-- 8xy5 SUB Vx, Vy (R78). -/
def execSubVxVy (x y : Reg) (s : State) : Host.Outcome State Fault Refusal :=
  .next (writeWithFlag x (s.getV x - s.getV y) (notBorrowFlag (s.getV x) (s.getV y)) s)

/-- 8xy6 SHR Vx, Vy (R79). -/
def execShrVxVy (x y : Reg) (s : State) : Host.Outcome State Fault Refusal :=
  .next (writeWithFlag x (shiftOperand x y s >>> 1) (shrFlag (shiftOperand x y s)) s)

/-- 8xy7 SUBN Vx, Vy (R80). -/
def execSubnVxVy (x y : Reg) (s : State) : Host.Outcome State Fault Refusal :=
  .next (writeWithFlag x (s.getV y - s.getV x) (notBorrowFlag (s.getV y) (s.getV x)) s)

/-- 8xyE SHL Vx, Vy (R81). -/
def execShlVxVy (x y : Reg) (s : State) : Host.Outcome State Fault Refusal :=
  .next (writeWithFlag x (shiftOperand x y s <<< 1) (shlFlag (shiftOperand x y s)) s)

/-- Cxnn when the byte from outside is `r` (R82). -/
def rndWith (r : Byte) (x : Reg) (nn : Byte) (s : State) : State := s.setV x (r &&& nn)

/-- Cxnn RND Vx, nn: the byte is a free value, and the next draw is another (R82, R115, decision D20, log entry 2). -/
def execRndVxNn (x : Reg) (nn : Byte) (s : State) : Host.Outcome State Fault Refusal :=
  .next ((rndWith s.drawnByte x nn s).setDraws (s.draws + 1))

end Sys2Proof.Machine
end

