-- ==== Sys2Proof/Machine/Control.lean ====
section
/-! DEFINITION. Control transfer (spec 40_control.md). On entry `pc` is already `a + 2` and `dirty` 0 (R50). -/

namespace Sys2Proof.Machine

/-- Skip the next two bytes when the condition holds (R68). -/
def skipIf (c : Bool) (s : State) : State := if c then s.setPc (s.pc + 2) else s

/-- 00EE RET (R60). -/
def execRet (s : State) : Host.Outcome State Fault Refusal := finish (popReturn s)

/-- 1nnn JP nnn (R61). -/
def execJp (nnn : Imm12) (s : State) : Host.Outcome State Fault Refusal := .next (s.setPc (zextImm nnn))

/-- 2nnn in a build with the given `STACK_CAPACITY` (R62, R122): push the advanced `pc`, then jump. -/
def callWith (capacity : Option Nat) (nnn : Imm12) (s : State) : Except Fault State :=
  match pushReturn capacity s.pc s with
  | .error c => .error c
  | .ok s' => .ok (s'.setPc (zextImm nnn))

/-- 2nnn CALL nnn (R62). -/
def execCall (nnn : Imm12) (s : State) : Host.Outcome State Fault Refusal := finish (callWith stackCapacity nnn s)

/-- 3xnn SE Vx, nn (R63). -/
def execSeVxNn (x : Reg) (nn : Byte) (s : State) : Host.Outcome State Fault Refusal :=
  .next (skipIf (s.getV x == nn) s)

/-- 4xnn SNE Vx, nn (R64). -/
def execSneVxNn (x : Reg) (nn : Byte) (s : State) : Host.Outcome State Fault Refusal :=
  .next (skipIf (s.getV x != nn) s)

/-- 5xy0 SE Vx, Vy (R65). -/
def execSeVxVy (x y : Reg) (s : State) : Host.Outcome State Fault Refusal :=
  .next (skipIf (s.getV x == s.getV y) s)

/-- 9xy0 SNE Vx, Vy (R66). -/
def execSneVxVy (x y : Reg) (s : State) : Host.Outcome State Fault Refusal :=
  .next (skipIf (s.getV x != s.getV y) s)

/-- Bnnn JP V0, nnn (R67): a 16-bit sum, not masked (decision D21). -/
def execJpV0Nnn (nnn : Imm12) (s : State) : Host.Outcome State Fault Refusal :=
  .next (s.setPc (zextImm nnn + zextByte (s.getV (jumpOffsetReg nnn s))))

end Sys2Proof.Machine
end

