-- ==== Sys2Proof/Machine/Display.lean ====
section
/-! DEFINITION. Display instructions (spec 43_display.md). On entry `pc` is already `a + 2` and stays so; `dirty` has been
cleared for this Step. -/

namespace Sys2Proof.Machine

/-- What a draw works on: the pixels, and whether one has been turned off so far (R94). -/
structure Canvas where
  fb : Framebuffer
  hit : Bool
  deriving DecidableEq, Repr

/-- One sprite pixel that is 1, at `row`, `col`: dropped outside the grid, else XORed in, a pixel that was on being a
collision (R94). -/
def plot (row col : Nat) (d : Canvas) : Canvas :=
  if h : row < 32 ∧ col < 64 then
    { fb := d.fb.set row ((d.fb[row]'h.1).set col (!(d.fb[row]'h.1)[col]'h.2) h.2) h.1
      hit := d.hit || (d.fb[row]'h.1)[col]'h.2 }
  else d

/-- One sprite row `b` at `row`, its leftmost column at `x0`; bit `7 - c` of the byte is sprite column `c` (R95: PRESUMED,
unsafe, log entry 14). -/
def drawRow (b : Byte) (row x0 : Nat) (d : Canvas) : Canvas :=
  (List.range 8).foldl (fun d c => if b.getLsbD (7 - c) then plot row (x0 + c) d else d) d

/-- The rows of a sprite from `row` down (R94, R95). -/
def drawRows : (bs : List Byte) → (row x0 : Nat) → Canvas → Canvas
  | [], _, _, d => d
  | b :: bs, row, x0, d => drawRows bs (row + 1) x0 (drawRow b row x0 d)

/-- Dxyn with the given `DRAW_Y_MOD` (R94). The coordinates are read first (decision D10, log entry 18), VF is the
collision flag, and all `n` bytes are read, clipped or not (decision D11, log entry 19). No byte of memory is written, so
reading them before drawing is the spec's order. -/
def drawWith (yMod : Nat) (x y : Reg) (n : Nat) (s : State) : Except Fault State :=
  match loadBytes n (baseAddress s) s with
  | .error c => .error c
  | .ok bs =>
    let d := drawRows bs ((s.getV y).toNat % yMod) ((s.getV x).toNat % drawXMod) ⟨s.fb, false⟩
    .ok (((s.setFb d.fb).setV vf (flagByte d.hit)).setDirty true)

/-- 00E0 CLS (R93). -/
def execCls (s : State) : Host.Outcome State Fault Refusal := .next ((s.setFb Framebuffer.blank).setDirty true)

/-- Dxyn DRW Vx, Vy, n (R94). -/
def execDrw (x y : Reg) (n : Nat) (s : State) : Host.Outcome State Fault Refusal := finish (drawWith drawYMod x y n s)

end Sys2Proof.Machine
end

