-- ==== Sys2Proof/Machine/IndexMemory.lean ====
section
/-! DEFINITION. Index register and memory instructions (spec 42_index_memory.md). On entry `pc` is already `a + 2` and
stays so; none of them writes VF as a flag (R91). -/

namespace Sys2Proof.Machine

/-- Annn LD I, nnn (R85). -/
def execLdINnn (nnn : Imm12) (s : State) : Host.Outcome State Fault Refusal := .next (s.setI (zextImm nnn))

/-- Fx1E ADD I, Vx: modulo 65536, no flag (R86, decision D6, log entry 23). -/
def execAddIVx (x : Reg) (s : State) : Host.Outcome State Fault Refusal := .next (s.setI (s.I + zextByte (s.getV x)))

/-- Fx29 LD F, Vx (R87). -/
def execLdFVx (x : Reg) (s : State) : Host.Outcome State Fault Refusal := .next (s.setI (glyphAddress (s.getV x)))

/-- Fx33 LD B, Vx (R88). -/
def execLdBVx (x : Reg) (s : State) : Host.Outcome State Fault Refusal :=
  finish (storeBytes (decimalDigits (s.getV x)) (baseAddress s) s)

/-- Fx55 LD [I], Vx (R89). -/
def execLdMemVx (x : Reg) (s : State) : Host.Outcome State Fault Refusal :=
  match storeBytes (regsUpTo x s) (baseAddress s) s with
  | .error c => raise c
  | .ok s' => .next (s'.setI (blockEndI x s))

/-- Fx65 LD Vx, [I] (R90). -/
def execLdVxMem (x : Reg) (s : State) : Host.Outcome State Fault Refusal :=
  match loadBytes (x.val + 1) (baseAddress s) s with
  | .error c => raise c
  | .ok bs => .next ((s.setRegs (fillRegs bs 0 s.V)).setI (blockEndI x s))

end Sys2Proof.Machine
end

