-- ==== Sys2Proof/Machine/TimerInput.lean ====
section
/-! DEFINITION. Timer and key instructions (spec 44_timer_input.md). On entry `pc` is already `a + 2`. -/

namespace Sys2Proof.Machine

/-- Fx07 LD Vx, DT (R98; log entry 24). -/
def execLdVxDt (x : Reg) (s : State) : Host.Outcome State Fault Refusal := .next (s.setV x s.dt)

/-- Fx15 LD DT, Vx (R99; log entry 24). -/
def execLdDtVx (x : Reg) (s : State) : Host.Outcome State Fault Refusal := .next (s.setDt (s.getV x))

/-- Fx18 LD ST, Vx (R100; log entry 24). -/
def execLdStVx (x : Reg) (s : State) : Host.Outcome State Fault Refusal := .next (s.setSt (s.getV x))

/-- Ex9E SKP Vx: the level of the current latch (R101, R104). -/
def execSkp (x : Reg) (s : State) : Host.Outcome State Fault Refusal :=
  match keyOperand (s.getV x) with
  | .error c => raise c
  | .ok k => .next (skipIf s.keyCur[k] s)

/-- ExA1 SKNP Vx: the level of the current latch (R102, R104). -/
def execSknp (x : Reg) (s : State) : Host.Outcome State Fault Refusal :=
  match keyOperand (s.getV x) with
  | .error c => raise c
  | .ok k => .next (skipIf (!s.keyCur[k]) s)

/-- Fx0A LD Vx, K: re-armed by taking `pc` back when no key was released, else completed (R103). -/
def execLdVxK (x : Reg) (s : State) : Host.Outcome State Fault Refusal :=
  match releasedKeys s with
  | [] => .next (s.setPc (s.pc - 2))
  | k :: ks => .next (s.setV x (BitVec.ofNat 8 (keywaitPick k ks).val))

end Sys2Proof.Machine
end

