-- ==== Sys2Proof/Machine/Run.lean ====
section
/-! DEFINITION. A Step of a running core, in its parts (spec 30_encoding.md R50). -/

namespace Sys2Proof.Machine

/-- Steps 4 and 5 on the word `hi ∥ lo`: execute the instruction it is, or, when it is unrecognised, change nothing more
(R50, R53). -/
def runWord (hi lo : Byte) (s : State) : Host.Outcome State Fault Refusal :=
  match decodeWord (assembleWord hi lo) with
  | .ok i => exec i s
  | .error _ => .next s

/-- Steps 1 to 5 of a running core: a fetch fault pre-empts the instruction (R50, R126). -/
def stepRunning (s : State) : Host.Outcome State Fault Refusal :=
  match fetch s with
  | .error c => raise c
  | .ok (hi, lo) => runWord hi lo s.advanced

/-- Where the next fetch reads: `pc`, or the program start when no word can be fetched at `pc` (log entry 26). -/
def fetchSlot (s : State) : Nat := if s.pc.toNat + 1 < memSize then s.pc.toNat else progStart

end Sys2Proof.Machine
end

