-- ==== Sys2Proof/Machine/Step.lean ====
section
/-! DEFINITION. The Step transaction (spec 30_encoding.md R50). The other transactions are in Machine/Transactions.lean. -/

namespace Sys2Proof.Machine

/-- `Step()`: exactly one instruction (R50). A faulted core has no successor, and its outcome stays its cause (R124, log
entry 9). -/
def step (s : State) : Host.Outcome State Fault Refusal :=
  match s.status with
  | .faulted c => raise c
  | .running => stepRunning s

/-- The state with the given instruction word where the next `step` fetches: its two bytes stored in memory order, `pc` at
them, and the core running (log entry 26). -/
def State.withFetchWord (s : State) (nbits w : Nat) : State :=
  let word : Word := BitVec.ofNat 16 (w % 2 ^ nbits)
  { s with
    mem := (s.mem.write (fetchSlot s) (highByte word)).write (fetchSlot s + 1) (lowByte word)
    pc := BitVec.ofNat 16 (fetchSlot s)
    status := .running }

end Sys2Proof.Machine
end

