-- ==== Sys2Proof/Machine/Transactions.lean ====
section
/-! DEFINITION. The host transactions (spec 45_host_transactions.md): the core's whole external interface. Each is atomic
(R106). Their outputs are the two diagnostics (R114) and the pixels of DisplayRead (R112). -/

namespace Sys2Proof.Machine

/-! ### Diagnostics (R114) -/

/-- An output event, which changes no state (R114, decision D23, log entry 12). -/
inductive Diag where
  /-- An instruction word that matches no row, and the address it was fetched from (R53). -/
  | unrecognisedOpcode (w : Word) (a : Word)
  /-- A second LoadROM (R107). -/
  | romAlreadyLoaded
  deriving DecidableEq, Repr

/-- The diagnostic the next `step` emits, if any (R50 step 5, R53). -/
def State.stepDiag (s : State) : Option Diag :=
  match s.status with
  | .faulted _ => none
  | .running =>
    match fetch s with
    | .error _ => none
    | .ok (hi, lo) =>
      match decodeWord (assembleWord hi lo) with
      | .ok _ => none
      | .error _ => some (.unrecognisedOpcode (assembleWord hi lo) s.pc)

/-! ### The transactions other than Step -/

/-- A timer counted down by one, saturating at 0 (R109). -/
def countDown (t : Byte) : Byte := if 0 < t.toNat then t - 1 else t

/-- `DecrementTimers()` (R109). -/
def decrementTimers (s : State) : State := { s with dt := countDown s.dt, st := countDown s.st }

/-- `KeySnapshot()` (R110). -/
def keySnapshot (s : State) : State := { s with keyPrev := s.keyCur }

/-- `KeySet(k, b)` (R111). -/
def keySet (k : Key) (b : Bool) (s : State) : State := { s with keyCur := s.keyCur.set k b }

/-- Bytes written from `a` up, addresses rising. -/
def Memory.writeAll : (m : Memory) → (a : Nat) → (bs : List Byte) → Memory
  | m, _, [] => m
  | m, a, b :: bs => Memory.writeAll (m.write a b) (a + 1) bs

/-- `LoadROM(bytes)` when no ROM is loaded and the bytes fit (R107, decision D27, log entry 25). -/
def loadRom (bytes : List Byte) (s : State) : State :=
  { s with mem := s.mem.writeAll progStart bytes, loaded := true }

/-- `DisplayRead()`: the pixels and the dirty flag, changing nothing (R112). -/
def displayRead (s : State) : Framebuffer × Bool := (s.fb, s.dirty)

/-- The host's read-only observation of `dt` and `st` (R116, decision D30). -/
def observeTimers (s : State) : Byte × Byte := (s.dt, s.st)

/-! ### All of them (R106) -/

/-- The host transactions, and the observation of R116. -/
inductive Transaction where
  | construct (v : Variant)
  | loadRom (bytes : List Byte)
  | step
  | decrementTimers
  | keySnapshot
  | keySet (k : Key) (b : Bool)
  | displayRead
  | observeTimers
  deriving DecidableEq, Repr

/-- What a transaction gives the host besides the new state. -/
inductive Reply where
  | silent
  | diagnostic (d : Diag)
  | display (fb : Framebuffer) (dirty : Bool)
  | timers (dt st : Byte)
  deriving DecidableEq, Repr

/-- The reply of a Step: its diagnostic, if it emits one (R114). -/
def State.stepReply (s : State) : Reply :=
  match s.stepDiag with
  | none => .silent
  | some d => .diagnostic d

/-- The Step transaction of a running core, with its halt: a faulting Step leaves `State.halted` (R124, log entry 8). -/
def transactStep (s : State) : Host.Outcome (State × Reply) Fault Refusal :=
  match step s with
  | .next t => .next (t, s.stepReply)
  | .fault c => .next (s.halted c, .silent)
  | .refused r => .refused r

/-- `LoadROM(bytes)`: rejected with a diagnostic when a ROM is loaded, outside the model above 3584 bytes (R107, decision D19,
log entry 11). -/
def transactLoadRom (bytes : List Byte) (s : State) : Host.Outcome (State × Reply) Fault Refusal :=
  if s.loaded then .next (s, .diagnostic .romAlreadyLoaded)
  else if bytes.length ≤ romMax then .next (loadRom bytes s, .silent)
  else .refused (.romTooLong bytes.length)

/-- `Construct(v)` (R135): a fresh core, whose random bytes are fresh too (log entry 27). -/
def reconstruct (v : Variant) (s : State) : State := { State.construct v with draws := s.draws }

/-- A transaction of a running core (R106). -/
def transactRunning (t : Transaction) (s : State) : Host.Outcome (State × Reply) Fault Refusal :=
  match t with
  | .construct v => .next (reconstruct v s, .silent)
  | .loadRom bytes => transactLoadRom bytes s
  | .step => transactStep s
  | .decrementTimers => .next (Machine.decrementTimers s, .silent)
  | .keySnapshot => .next (Machine.keySnapshot s, .silent)
  | .keySet k b => .next (Machine.keySet k b s, .silent)
  | .displayRead => .next (s, .display (Machine.displayRead s).1 (Machine.displayRead s).2)
  | .observeTimers => .next (s, .timers (Machine.observeTimers s).1 (Machine.observeTimers s).2)

/-- A transaction of a core halted with cause `c`: Step has no successor, a new Construct is the only recovery, and the rest
are given no meaning (R124, R125, decision D31, log entries 9 and 10). -/
def transactFaulted (c : Fault) (t : Transaction) (s : State) : Host.Outcome (State × Reply) Fault Refusal :=
  match t with
  | .construct v => .next (reconstruct v s, .silent)
  | .step => .fault c
  | .loadRom _ => .refused (.noMeaningWhenFaulted c)
  | .decrementTimers => .refused (.noMeaningWhenFaulted c)
  | .keySnapshot => .refused (.noMeaningWhenFaulted c)
  | .keySet _ _ => .refused (.noMeaningWhenFaulted c)
  | .displayRead => .refused (.noMeaningWhenFaulted c)
  | .observeTimers => .refused (.noMeaningWhenFaulted c)

/-- One host transaction (R106). -/
def transact (t : Transaction) (s : State) : Host.Outcome (State × Reply) Fault Refusal :=
  match s.status with
  | .running => transactRunning t s
  | .faulted c => transactFaulted c t s

end Sys2Proof.Machine
end

