-- ==== Sys2Proof/Safety.lean ====
section
/-! DEFINITION. The terms in which claims are stated: the invariant of the machine, when each instruction faults (spec
60_exceptions.md R118, R120, R126), which registers each writes (10_state.md R12), the pixels of a sprite (43_display.md R94,
R95), and what a safe run is. -/

namespace Sys2Proof.Machine

/-! ### The invariant -/

/-- What holds of every reachable running core: the memory is in canonical form, a return address is at most 0x1000 (R60), and
`pc` is at most 0x10FE (R67). -/
def State.Inv (s : State) : Prop :=
  s.mem.wf ∧ s.pc.toNat ≤ 0x10FE ∧ ∀ w ∈ s.stack, w.toNat ≤ 0x1000

/-! ### Frames -/

/-- Every byte reads as before, through `MemRead` (R33). -/
def SameMemory (s t : State) : Prop := ∀ a, memRead a t = memRead a s

/-- Every pixel and the dirty flag are as before. -/
def SameDisplay (s t : State) : Prop := (∀ row col, t.pixel row col = s.pixel row col) ∧ t.dirty = s.dirty

/-- Nothing differs but general registers: `pc`, `I`, the stack, the timers, the latches, the display, the host's flags and every
byte of memory are as before. -/
def OnlyRegisters (s t : State) : Prop := t = { s with V := t.V } ∧ SameMemory s t ∧ SameDisplay s t

/-- An instruction with a flag output, from `s` to `t`: VF is the flag, `V[x]` the result unless it is VF itself, in which case the
flag wins (R70, decision D9), and nothing else differs. -/
def FlagResult (s t : State) (x : Reg) (result flag : Byte) : Prop :=
  t.getV vf = flag ∧ (x ≠ vf → t.getV x = result) ∧ (∀ r, r ≠ x → r ≠ vf → t.getV r = s.getV r) ∧ OnlyRegisters s t

/-- A logic instruction, from `s` to `t`: on Original VF is 0, else VF is written only as a destination (R74, R70). -/
def LogicResult (s t : State) (x : Reg) (result : Byte) : Prop :=
  if s.variant = .original then FlagResult s t x result 0
  else t.getV x = result ∧ (∀ r, r ≠ x → t.getV r = s.getV r) ∧ OnlyRegisters s t

/-- The instructions whose meaning the variant changes: the six families of R5. -/
def consultsVariant (i : Instr) : Bool :=
  match i with
  | .cls => false
  | .ret => false
  | .jp _ => false
  | .call _ => false
  | .seVxNn _ _ => false
  | .sneVxNn _ _ => false
  | .seVxVy _ _ => false
  | .ldVxNn _ _ => false
  | .addVxNn _ _ => false
  | .ldVxVy _ _ => false
  | .orVxVy _ _ => true
  | .andVxVy _ _ => true
  | .xorVxVy _ _ => true
  | .addVxVy _ _ => false
  | .subVxVy _ _ => false
  | .shrVxVy _ _ => true
  | .subnVxVy _ _ => false
  | .shlVxVy _ _ => true
  | .sneVxVy _ _ => false
  | .ldINnn _ => false
  | .jpV0Nnn _ => true
  | .rndVxNn _ _ => false
  | .drw _ _ _ => false
  | .skp _ => false
  | .sknp _ => false
  | .ldVxDt _ => false
  | .ldVxK _ => false
  | .ldDtVx _ => false
  | .ldStVx _ => false
  | .addIVx _ => false
  | .ldFVx _ => false
  | .ldBVx _ => false
  | .ldMemVx _ => true
  | .ldVxMem _ => true

/-- The general registers an instruction may write on a variant: its destinations, and VF where it writes it as a flag
(R12). -/
def writesReg (v : Variant) (i : Instr) (r : Reg) : Bool :=
  match i with
  | .cls => false
  | .ret => false
  | .jp _ => false
  | .call _ => false
  | .seVxNn _ _ => false
  | .sneVxNn _ _ => false
  | .seVxVy _ _ => false
  | .ldVxNn x _ => r == x
  | .addVxNn x _ => r == x
  | .ldVxVy x _ => r == x
  | .orVxVy x _ => r == x || (v == .original && r == vf)
  | .andVxVy x _ => r == x || (v == .original && r == vf)
  | .xorVxVy x _ => r == x || (v == .original && r == vf)
  | .addVxVy x _ => r == x || r == vf
  | .subVxVy x _ => r == x || r == vf
  | .shrVxVy x _ => r == x || r == vf
  | .subnVxVy x _ => r == x || r == vf
  | .shlVxVy x _ => r == x || r == vf
  | .sneVxVy _ _ => false
  | .ldINnn _ => false
  | .jpV0Nnn _ => false
  | .rndVxNn x _ => r == x
  | .drw _ _ _ => r == vf
  | .skp _ => false
  | .sknp _ => false
  | .ldVxDt x => r == x
  | .ldVxK x => r == x
  | .ldDtVx _ => false
  | .ldStVx _ => false
  | .addIVx _ => false
  | .ldFVx _ => false
  | .ldBVx _ => false
  | .ldMemVx _ => false
  | .ldVxMem x => decide (r.val ≤ x.val)

/-! ### When an instruction faults -/

/-- The fault of an access to `n` bytes from address `a` up: the first address above 0xFFF, which is 0x1000 unless `a` itself is
above 0xFFF (R120, R126). -/
def accessFault (a n : Nat) : Option Fault :=
  if n = 0 ∨ a + n ≤ 0x1000 then none else some (.addressOutOfRange (max a 0x1000))

/-- The fault of a key number above 15 (R121). -/
def keyFault (b : Byte) : Option Fault := if 15 < b.toNat then some (.keyIndexOutOfRange b) else none

/-- The fault each instruction raises, by the table of R118 and R120 (the source's unbounded stack, so 2nnn none). -/
def faultOf (i : Instr) (s : State) : Option Fault :=
  match i with
  | .cls => none
  | .ret => if s.stack.isEmpty then some .stackUnderflow else none
  | .jp _ => none
  | .call _ => none
  | .seVxNn _ _ => none
  | .sneVxNn _ _ => none
  | .seVxVy _ _ => none
  | .ldVxNn _ _ => none
  | .addVxNn _ _ => none
  | .ldVxVy _ _ => none
  | .orVxVy _ _ => none
  | .andVxVy _ _ => none
  | .xorVxVy _ _ => none
  | .addVxVy _ _ => none
  | .subVxVy _ _ => none
  | .shrVxVy _ _ => none
  | .subnVxVy _ _ => none
  | .shlVxVy _ _ => none
  | .sneVxVy _ _ => none
  | .ldINnn _ => none
  | .jpV0Nnn _ => none
  | .rndVxNn _ _ => none
  | .drw _ _ n => accessFault s.I.toNat n
  | .skp x => keyFault (s.getV x)
  | .sknp x => keyFault (s.getV x)
  | .ldVxDt _ => none
  | .ldVxK _ => none
  | .ldDtVx _ => none
  | .ldStVx _ => none
  | .addIVx _ => none
  | .ldFVx _ => none
  | .ldBVx _ => accessFault s.I.toNat 3
  | .ldMemVx x => accessFault s.I.toNat (x.val + 1)
  | .ldVxMem x => accessFault s.I.toNat (x.val + 1)

/-! ### Sprites -/

/-- The sprite of Dxyn has a 1 bit on the pixel at `row`, `col`: the start is `V[x] mod 64`, `V[y] mod DRAW_Y_MOD`, sprite row
`r` is the byte at `I + r`, and its bit 7 is the leftmost column (R94, R95; log entries 5 and 14). -/
def spriteBit (s : State) (x y : Reg) (n row col : Nat) : Bool :=
  let x0 := (s.getV x).toNat % 64
  let y0 := (s.getV y).toNat % drawYMod
  decide (y0 ≤ row ∧ row < y0 + n ∧ x0 ≤ col ∧ col < x0 + 8) &&
    (s.mem.read (s.I.toNat + (row - y0))).getLsbD (7 - (col - x0))

/-! ### The word at `pc` -/

/-- A word can be fetched and is made of these two bytes, the first being the high one (R36, R46). -/
def FetchesBytes (s : State) (hi lo : Byte) : Prop :=
  memRead s.pc.toNat s = .ok hi ∧ memRead (s.pc.toNat + 1) s = .ok lo

/-- The word at `pc`, fetched whole, is `w` (R46). -/
def FetchesWord (s : State) (w : Word) : Prop := ∃ hi lo : Byte, FetchesBytes s hi lo ∧ w = hi ++ lo

/-! ### Safe and finished runs -/

/-- `k` Steps complete, none faulting. -/
def SafeFor : Nat → State → Prop
  | 0, _ => True
  | k + 1, s => ∃ t, step s = .next t ∧ SafeFor k t

/-- The program has finished (R138): of the two definitions the rule offers, "pc holds the address of a `1nnn` whose `nnn` is that
address", on a running core. The machine is not stopped, and the host may go on with its transactions. DESIGN CHOICE, safe, log
entry 31. -/
def State.Finished (s : State) : Prop :=
  s.status = .running ∧ ∃ nnn : Imm12, FetchesWord s (formatA 0x1 nnn) ∧ s.pc.toNat = nnn.toNat

/-- `k` Steps back to back complete, and the program has then finished (R138; log entries 29 and 31). -/
def FinishesIn : Nat → State → Prop
  | 0, s => s.Finished
  | k + 1, s => ∃ t, step s = .next t ∧ FinishesIn k t

end Sys2Proof.Machine
end

