-- ==== Sys2Proof/Certificates/Slice0/Obligations.lean ====
section
/-! DEFINITION. The statements for the provers. `s` is the state an instruction runs from, with `pc` already `a + 2` and `dirty`
already 0 (spec 30_encoding.md R50), wherever a statement is about `exec`. -/

open Sys2Proof Sys2Proof.Machine

/-! ### Encoding -/

/-- Words written out from the patterns of R51, one or more per family, decode to the instruction they stand for. -/
def Obligations.SampleWordsDecode : Prop :=
  decodeWord 0x00E0#16 = .ok .cls ∧
  decodeWord 0x00EE#16 = .ok .ret ∧
  decodeWord 0x1204#16 = .ok (.jp 0x204) ∧
  decodeWord 0x220A#16 = .ok (.call 0x20A) ∧
  decodeWord 0x3142#16 = .ok (.seVxNn 1 0x42) ∧
  decodeWord 0x9340#16 = .ok (.sneVxVy 3 4) ∧
  decodeWord 0x6A2C#16 = .ok (.ldVxNn 10 0x2C) ∧
  decodeWord 0x801E#16 = .ok (.shlVxVy 0 1) ∧
  decodeWord 0xA300#16 = .ok (.ldINnn 0x300) ∧
  decodeWord 0xD012#16 = .ok (.drw 0 1 2) ∧
  decodeWord 0xE49E#16 = .ok (.skp 4) ∧
  decodeWord 0xF155#16 = .ok (.ldMemVx 1) ∧
  decodeWord 0xF265#16 = .ok (.ldVxMem 2) ∧
  decodeWord 0x8128#16 = .error (.unrecognised 0x8128)

/-- Decoding the word of a well-formed instruction gives it back, for every instruction and every operand value the encoding
admits (R47, R48, R51). -/
def Obligations.DecodeInvertsEncode : Prop :=
  ∀ i : Instr, i.WellFormed → decodeWord (encode i) = .ok i

/-- A word that decodes, decodes to a well-formed instruction whose word it is (R47, R48, R51). -/
def Obligations.EncodeInvertsDecode : Prop :=
  ∀ (w : Word) (i : Instr), decodeWord w = .ok i → i.WellFormed ∧ encode i = w

/-- A word is an instruction exactly when it matches that instruction's row of the opcode table, `w AND mask = match` (R51;
every printed digit matched, R52, decision D17, log entry 21). -/
def Obligations.DecoderFollowsTheOpcodeTable : Prop :=
  ∀ w : Word,
    (∀ i, decodeWord w = .ok i → i.row ∈ opcodeTable ∧ w &&& i.row.mask = i.row.pattern) ∧
    (∀ r ∈ opcodeTable, w &&& r.mask = r.pattern → ∃ i, decodeWord w = .ok i ∧ i.row = r)

/-- The unrecognised words are exactly the six classes of R54, which the spec derives from R51. -/
def Obligations.UnrecognisedWordsAreSixClasses : Prop :=
  ∀ w : Word, decodeWord w = .error (.unrecognised w) ↔
    (opField w = 0x0 ∧ nnnField w ≠ 0x0E0 ∧ nnnField w ≠ 0x0EE) ∨
    (opField w = 0x5 ∧ nField w ≠ 0x0) ∨
    (opField w = 0x8 ∧ nField w ∈ [0x8#4, 0x9#4, 0xA#4, 0xB#4, 0xC#4, 0xD#4, 0xF#4]) ∨
    (opField w = 0x9 ∧ nField w ≠ 0x0) ∨
    (opField w = 0xE ∧ nnField w ∉ [0x9E#8, 0xA1#8]) ∨
    (opField w = 0xF ∧
      nnField w ∉ [0x07#8, 0x0A#8, 0x15#8, 0x18#8, 0x1E#8, 0x29#8, 0x33#8, 0x55#8, 0x65#8])

/-! ### The Step -/

/-- A step of a running core whose two bytes at `pc` decode to a well-formed instruction is that instruction run with `dirty`
cleared and `pc` advanced by 2, and emits no diagnostic (R46, R50; clearing `dirty` first is decision D15, log entry 20). -/
def Obligations.StepRunsDecodedInstruction : Prop :=
  ∀ (s : State) (hi lo : Byte) (i : Instr), s.status = .running → FetchesBytes s hi lo →
    decodeWord (hi ++ lo) = .ok i → i.WellFormed →
      step s = exec i { s with dirty := false, pc := s.pc + 2 } ∧ s.stepDiag = none

/-- A step of a running core on an unrecognised word advances `pc`, clears `dirty`, changes nothing else, and emits the diagnostic
with the word and its address (R53, R114; clearing `dirty` is decision D15, log entry 20). -/
def Obligations.UnrecognisedWordIsLoggedNoOp : Prop :=
  ∀ (s : State) (hi lo : Byte) (e : DecodeError), s.status = .running → FetchesBytes s hi lo →
    decodeWord (hi ++ lo) = .error e →
      step s = .next { s with dirty := false, pc := s.pc + 2 } ∧
      s.stepDiag = some (.unrecognisedOpcode (hi ++ lo) s.pc)

/-- Placing the word of a well-formed instruction for the next fetch makes the next step run exactly it (R46, R50; the placement is
the model's, log entry 26; clearing `dirty` is decision D15, log entry 20). -/
def Obligations.StepRunsPlacedWord : Prop :=
  ∀ (s : State) (i : Instr), s.mem.wf → i.WellFormed →
    let t := s.withFetchWord 16 (encode i).toNat
    step t = exec i { t with dirty := false, pc := t.pc + 2 }

/-- A running core fetches its two bytes exactly when `pc` is at most 0xFFE; above, the step faults with `pc` if that is above
0xFFF, else with 0x1000 (R35, R46, R120; the fault is decision D4, log entry 16). -/
def Obligations.FetchFaultsAbove0xFFE : Prop :=
  ∀ s : State, s.status = .running →
    (s.pc.toNat ≤ 0xFFE → ∃ hi lo, FetchesBytes s hi lo) ∧
    (0xFFE < s.pc.toNat →
      step s = .fault (.addressOutOfRange (if 0xFFF < s.pc.toNat then s.pc.toNat else 0x1000)))

/-- A Step on a faulted core has no successor state; its outcome stays the cause (R124; decision D5, log entry 9). -/
def Obligations.FaultedCoreHasNoSuccessor : Prop :=
  ∀ (s : State) (c : Fault), s.status = .faulted c → step s = .fault c ∧ transact .step s = .fault c

/-- A step of a running core that can fetch faults exactly when the fetched word is an instruction that faults by the table of R118
(faultOf), with that cause (R118, R120, R126; decisions D4, D7, log entries 16 and 17). -/
def Obligations.StepFaultsExactlyByTheTable : Prop :=
  ∀ (s : State) (hi lo : Byte) (c : Fault), s.status = .running → FetchesBytes s hi lo →
    (step s = .fault c ↔ ∃ i, decodeWord (hi ++ lo) = .ok i ∧ faultOf i { s with dirty := false, pc := s.pc + 2 } = some c)

/-- A faulting Step of a running core leaves a core whose status is that cause, on which a Step has no successor and only a new
Construct has one (R124, R125; decisions D5 and D31, log entries 8 to 10). -/
def Obligations.FaultingStepHaltsForGood : Prop :=
  ∀ (s : State) (c : Fault), s.status = .running → step s = .fault c →
    ∃ t, transact .step s = .next (t, .silent) ∧ t.status = .faulted c ∧ step t = .fault c ∧
      ∀ tr u, transact tr t = .next u → ∃ v, tr = .construct v

/-- Every instruction faults exactly as the table of R118 and R120 says, with the cause and address it says, is never refused, and
otherwise completes (R118, R120, R121, R126; decisions D4, D7, D11, log entries 16, 17, 19). -/
def Obligations.InstructionFaultsAreTheTable : Prop :=
  ∀ (i : Instr) (s : State),
    (∀ c, exec i s = .fault c ↔ faultOf i s = some c) ∧
    (faultOf i s = none ↔ ∃ t, exec i s = .next t) ∧
    ∀ r, exec i s ≠ .refused r

/-! ### Invariants -/

/-- Every step keeps the invariant: memory in canonical form, `pc` at most 0x10FE, return addresses at most 0x1000 (R13, R60, R67;
derived there; the unmasked jump is decision D21, log entry 22). -/
def Obligations.StepKeepsInvariant : Prop :=
  ∀ s t : State, s.Inv → step s = .next t → t.Inv

/-- The invariant holds right after construction, on every variant. -/
def Obligations.ConstructMeetsInvariant : Prop :=
  State.reset.Inv ∧ ∀ v : Variant, (State.construct v).Inv

/-- Every host transaction that leaves a running core keeps the invariant (R106). -/
def Obligations.TransactionsKeepInvariant : Prop :=
  ∀ (tr : Transaction) (s t : State) (r : Reply), s.Inv → transact tr s = .next (t, r) → t.status = .running → t.Inv

/-- Construct leaves every component as R26 lists it, whatever the core was before (R26, R135, R136; `pc`, `I`, `fb`, `dirty`,
`loaded` and `status` are the spec's decisions D2, D3, D5, log entry 15; `State.reset` is the construction with Original, the
model's choice, log entry 1). -/
def Obligations.ConstructResetsEveryComponent : Prop :=
  State.reset = State.construct .original ∧
  ∀ (v : Variant) (s : State), ∃ t, transact (.construct v) s = .next (t, .silent) ∧
    (∀ r, t.getV r = 0) ∧ t.I = 0 ∧ t.pc = 0x0200 ∧ t.stack = [] ∧ t.dt = 0 ∧ t.st = 0 ∧
    (∀ k : Key, t.keyCur[k] = false ∧ t.keyPrev[k] = false) ∧ (∀ row col, t.pixel row col = false) ∧
    t.dirty = false ∧ t.loaded = false ∧ t.status = .running ∧ t.variant = v ∧
    (∀ i : Fin 80, memRead (fontBase + i.val) t = .ok (fontByte i)) ∧
    (∀ a, a < 0x1000 → (a < fontBase ∨ fontBase + 80 ≤ a) → memRead a t = .ok 0) ∧
    fontBase + 80 ≤ 0x200

/-! ### Whole-machine rules -/

/-- A Step never writes the key latches, the ROM-loaded flag or the variant, and leaves the core running (R27, R22, R23). -/
def Obligations.StepNeverWritesHostState : Prop :=
  ∀ s t : State, step s = .next t →
    t.keyCur = s.keyCur ∧ t.keyPrev = s.keyPrev ∧ t.loaded = s.loaded ∧ t.variant = s.variant ∧ t.status = .running

/-- After a step `dirty` is 1 exactly when the word it fetched is 00E0 or a Dxyn (R18, R96; derived there, resting on decision D15,
log entry 20). -/
def Obligations.DirtyTellsDisplayInstruction : Prop :=
  ∀ (s t : State) (w : Word), FetchesWord s w → step s = .next t →
    (t.dirty = true ↔ decodeWord w = .ok .cls ∨ ∃ x y n, decodeWord w = .ok (.drw x y n))

/-- Each component of R10 is written by no instruction but those its table names as its writers; `pc`, beyond the Step's advance, only
by 00EE, 1nnn, 2nnn, Bnnn, Fx0A and the six skips, and by a skip only by 2 (R13). Which registers of `V` a writer of `V` may write is
O21's. The model's own count of draws is written by Cxnn only (log entry 2). Which opcode writes which timer is log entry 24. -/
def Obligations.ComponentsWrittenOnlyByTheirInstructions : Prop :=
  ∀ (i : Instr) (s t : State), exec i s = .next t →
    ((∀ x, i ≠ .ldBVx x) → (∀ x, i ≠ .ldMemVx x) → t.mem = s.mem ∧ SameMemory s t) ∧
    (i ≠ .cls → (∀ x y n, i ≠ .drw x y n) → SameDisplay s t) ∧
    ((∀ nnn, i ≠ .call nnn) → i ≠ .ret → t.stack = s.stack) ∧
    ((∀ x, i ≠ .ldDtVx x) → t.dt = s.dt) ∧
    ((∀ x, i ≠ .ldStVx x) → t.st = s.st) ∧
    ((∀ nnn, i ≠ .ldINnn nnn) → (∀ x, i ≠ .addIVx x) → (∀ x, i ≠ .ldFVx x) →
      ((∀ x, i ≠ .ldMemVx x) ∧ (∀ x, i ≠ .ldVxMem x) ∨ s.variant = .superChip) → t.I = s.I) ∧
    (i ≠ .ret → (∀ nnn, i ≠ .jp nnn) → (∀ nnn, i ≠ .call nnn) → (∀ nnn, i ≠ .jpV0Nnn nnn) → (∀ x, i ≠ .ldVxK x) →
      t.pc = s.pc ∨ t.pc = s.pc + 2 ∧
        ((∃ x nn, i = .seVxNn x nn ∨ i = .sneVxNn x nn) ∨ (∃ x y, i = .seVxVy x y ∨ i = .sneVxVy x y) ∨
          ∃ x, i = .skp x ∨ i = .sknp x)) ∧
    (t.V = s.V ∨
      (∃ x nn, i = .ldVxNn x nn ∨ i = .addVxNn x nn ∨ i = .rndVxNn x nn) ∨
      (∃ x y, i = .ldVxVy x y ∨ i = .orVxVy x y ∨ i = .andVxVy x y ∨ i = .xorVxVy x y ∨ i = .addVxVy x y ∨
        i = .subVxVy x y ∨ i = .shrVxVy x y ∨ i = .subnVxVy x y ∨ i = .shlVxVy x y) ∨
      (∃ x y n, i = .drw x y n) ∨ ∃ x, i = .ldVxDt x ∨ i = .ldVxK x ∨ i = .ldVxMem x) ∧
    ((∀ x nn, i ≠ .rndVxNn x nn) → t.draws = s.draws) ∧
    t.keyCur = s.keyCur ∧ t.keyPrev = s.keyPrev ∧ t.loaded = s.loaded ∧ t.variant = s.variant ∧ t.status = s.status

/-- An instruction changes no general register but its destinations, and VF where R12 lists it as writing VF as a flag. -/
def Obligations.RegistersWrittenOnlyByTheirInstructions : Prop :=
  ∀ (i : Instr) (s t : State), exec i s = .next t →
    ∀ r : Reg, writesReg s.variant i r = false → t.getV r = s.getV r

/-- No instruction outside the six families of R5 depends on the variant. -/
def Obligations.VariantReachesOnlySixFamilies : Prop :=
  ∀ (i : Instr) (s : State) (v : Variant), consultsVariant i = false →
    (∀ t, exec i s = .next t → exec i { s with variant := v } = .next { t with variant := v }) ∧
    (∀ c, exec i s = .fault c → exec i { s with variant := v } = .fault c)

/-- No instruction observes the sound timer, the dirty flag or the ROM-loaded flag: a run that differs only in them differs only in
them (R25). -/
def Obligations.SoundTimerAndHostFlagsUnobserved : Prop :=
  ∀ (i : Instr) (s t : State) (b : Byte) (d l : Bool), exec i s = .next t →
    ∃ u, exec i { s with st := b, dirty := d, loaded := l } = .next u ∧
      u = { t with st := u.st, dirty := u.dirty, loaded := u.loaded }

/-- Two canonical memories that read the same at every address are the same list: the model's memory has one form (R16, R30). -/
def Obligations.MemoryCanonicalFormIsUnique : Prop :=
  ∀ m m' : Memory, m.wf → m'.wf → (∀ a, m.read a = m'.read a) → m = m'

/-! ### Control transfer -/

/-- 1nnn loads `pc` with `nnn` and changes nothing else; the target 0xFFF is accepted, and the next Step faults at the fetch (R61). -/
def Obligations.JumpLoadsPc : Prop :=
  ∀ (nnn : Imm12) (s : State),
    decodeWord (formatA 0x1 nnn) = .ok (.jp nnn) ∧
    ∃ t, exec (.jp nnn) s = .next t ∧ t.pc.toNat = nnn.toNat ∧ t = { s with pc := t.pc } ∧ SameMemory s t ∧
      (nnn = 0xFFF → s.status = .running → step t = .fault (.addressOutOfRange 0x1000))

/-- 00EE takes the return address pushed last off the stack into `pc`, unchecked, and changes nothing else; a return address 0x0FFF or
0x1000 makes the next Step fault at the fetch; 00EE faults when the stack is empty (R60, R119). -/
def Obligations.ReturnPopsStack : Prop :=
  decodeWord 0x00EE = .ok .ret ∧
  ∀ s : State,
    (∀ w rest, s.stack = w :: rest →
      ∃ t, exec .ret s = .next t ∧ t = { s with stack := rest, pc := w } ∧ SameMemory s t ∧
        (w = 0x0FFF ∨ w = 0x1000 → s.status = .running → step t = .fault (.addressOutOfRange 0x1000))) ∧
    (s.stack = [] → exec .ret s = .fault .stackUnderflow)

/-- 2nnn pushes the advanced `pc` and jumps, changing nothing else, at any depth; a build with a finite capacity faults on the push
beyond it (R62, R122; unbounded stack and finite build are decision D16, log entry 6). -/
def Obligations.CallPushesReturnAddress : Prop :=
  ∀ (nnn : Imm12) (s : State),
    decodeWord (formatA 0x2 nnn) = .ok (.call nnn) ∧
    (∃ t, exec (.call nnn) s = .next t ∧ t.stack = s.pc :: s.stack ∧ t.pc.toNat = nnn.toNat ∧
      t = { s with stack := t.stack, pc := t.pc } ∧ SameMemory s t ∧
      ∀ n, s.stack.length < n → callWith (some n) nnn s = .ok t) ∧
    ∀ n, n ≤ s.stack.length → callWith (some n) nnn s = .error .stackOverflow

/-- 3xnn skips two bytes when `V[x] = nn`, 4xnn when not; neither writes anything but `pc` (R63, R64, R68). -/
def Obligations.ImmediateSkips : Prop :=
  ∀ (x : Reg) (nn : Byte) (s : State),
    decodeWord (formatI 0x3 x nn) = .ok (.seVxNn x nn) ∧ decodeWord (formatI 0x4 x nn) = .ok (.sneVxNn x nn) ∧
    (s.getV x = nn →
      exec (.seVxNn x nn) s = .next { s with pc := s.pc + 2 } ∧ exec (.sneVxNn x nn) s = .next s) ∧
    (s.getV x ≠ nn →
      exec (.seVxNn x nn) s = .next s ∧ exec (.sneVxNn x nn) s = .next { s with pc := s.pc + 2 })

/-- 5xy0 skips two bytes when `V[x] = V[y]`, 9xy0 when not; neither writes anything but `pc`; with a trailing nibble other than 0
the word is unrecognised (R65, R66, R68). -/
def Obligations.RegisterSkips : Prop :=
  ∀ (x y : Reg) (s : State),
    decodeWord (formatR 0x5 x y 0) = .ok (.seVxVy x y) ∧ decodeWord (formatR 0x9 x y 0) = .ok (.sneVxVy x y) ∧
    (∀ n, n ≠ 0 → decodeWord (formatR 0x5 x y n) = .error (.unrecognised (formatR 0x5 x y n)) ∧
      decodeWord (formatR 0x9 x y n) = .error (.unrecognised (formatR 0x9 x y n))) ∧
    (s.getV x = s.getV y →
      exec (.seVxVy x y) s = .next { s with pc := s.pc + 2 } ∧ exec (.sneVxVy x y) s = .next s) ∧
    (s.getV x ≠ s.getV y →
      exec (.seVxVy x y) s = .next s ∧ exec (.sneVxVy x y) s = .next { s with pc := s.pc + 2 })

/-- Bnnn loads `pc` with the unmasked sum of `nnn` and a register: `V[0]`, or on SuperChip `V[x]` with `x` the top nibble of `nnn`;
the sum never wraps; nothing else changes (R67; the reading of `x` and the missing mask are decision D21, log entry 22). -/
def Obligations.JumpWithOffset : Prop :=
  ∀ (nnn : Imm12) (s : State),
    ∃ t, exec (.jpV0Nnn nnn) s = .next t ∧ t = { s with pc := t.pc } ∧ SameMemory s t ∧
      (s.variant ≠ .superChip → t.pc.toNat = nnn.toNat + (s.getV 0).toNat) ∧
      (∀ x : Reg, s.variant = .superChip → x.val = nnn.toNat / 256 → t.pc.toNat = nnn.toNat + (s.getV x).toNat)

/-- A word 1nnn at address `nnn` keeps the core where it is: every Step, of Steps issued back to back, completes and changes nothing
but `dirty`, which it clears (R138, R61; derived there). Premise: the host issues no other transaction in between (R113, log entry 29).
Clearing `dirty` is decision D15, log entry 20. -/
def Obligations.SelfJumpIsStable : Prop :=
  ∀ (s : State) (nnn : Imm12), s.status = .running → FetchesWord s (formatA 0x1 nnn) → s.pc.toNat = nnn.toNat →
    step s = .next { s with dirty := false } ∧ ∀ k, SafeFor k s

/-- A word 2nnn at address `nnn` pushes the same return address at every Step, of any number of Steps issued back to back, with no
fault (R62, R15; the unbounded stack is decision D16, log entry 6). Premise: the host issues no other transaction in between (R113, log
entry 29). -/
def Obligations.CallToSelfGrowsStack : Prop :=
  ∀ (s : State) (nnn : Imm12) (k : Nat), s.status = .running → FetchesWord s (formatA 0x2 nnn) → s.pc.toNat = nnn.toNat →
    ∃ t, Sys2Proof.core.run k s = .next t ∧ t.stack = List.replicate k (s.pc + 2) ++ s.stack ∧ t.pc = s.pc

/-- A call to an address that holds 00EE comes back in two Steps issued back to back: the core is as it was but for `pc`, past the call, and
`dirty` (R60, R62, R69; clearing `dirty` is decision D15, log entry 20). Premise: the host issues no other transaction in between (R113,
log entry 29). -/
def Obligations.CallAndReturnInTwoSteps : Prop :=
  ∀ (s : State) (nnn : Imm12), s.status = .running → FetchesWord s (formatA 0x2 nnn) →
    memRead nnn.toNat s = .ok 0x00 → memRead (nnn.toNat + 1) s = .ok 0xEE →
      Sys2Proof.core.run 2 s = .next { s with dirty := false, pc := s.pc + 2 }

/-! ### Registers and arithmetic -/

/-- 6xnn writes `nn`, 7xnn the sum modulo 256 without a flag, 8xy0 a copy, to `V[x]`; no other register and nothing else changes, VF
included unless it is the destination (R71, R72, R73). -/
def Obligations.LoadAddCopyRegister : Prop :=
  ∀ (x y : Reg) (nn : Byte) (s : State),
    decodeWord (formatI 0x6 x nn) = .ok (.ldVxNn x nn) ∧ decodeWord (formatI 0x7 x nn) = .ok (.addVxNn x nn) ∧
    decodeWord (formatR 0x8 x y 0x0) = .ok (.ldVxVy x y) ∧
    (∃ t, exec (.ldVxNn x nn) s = .next t ∧ t.getV x = nn ∧ (∀ r, r ≠ x → t.getV r = s.getV r) ∧ OnlyRegisters s t) ∧
    (∃ t, exec (.addVxNn x nn) s = .next t ∧ (t.getV x).toNat = ((s.getV x).toNat + nn.toNat) % 256 ∧
      (∀ r, r ≠ x → t.getV r = s.getV r) ∧ OnlyRegisters s t) ∧
    (∃ t, exec (.ldVxVy x y) s = .next t ∧ t.getV x = s.getV y ∧ (∀ r, r ≠ x → t.getV r = s.getV r) ∧ OnlyRegisters s t)

/-- 8xy1, 8xy2, 8xy3 write the OR, AND, XOR of the old `V[x]` and `V[y]`; on Original VF ends 0, elsewhere it is no flag output
(R74, R75, R76; VF last when `x = 0xF` is decision D9, log entry 18). -/
def Obligations.LogicResults : Prop :=
  ∀ (x y : Reg) (s : State),
    (∃ t, exec (.orVxVy x y) s = .next t ∧ LogicResult s t x (s.getV x ||| s.getV y)) ∧
    (∃ t, exec (.andVxVy x y) s = .next t ∧ LogicResult s t x (s.getV x &&& s.getV y)) ∧
    (∃ t, exec (.xorVxVy x y) s = .next t ∧ LogicResult s t x (s.getV x ^^^ s.getV y))

/-- 8xy4 writes the sum of the old operands modulo 256 to `V[x]`, then 1 to VF if the true sum exceeds 255, else 0 (R77; VF last when
`x = 0xF` is decision D9, log entry 18). -/
def Obligations.AddSetsCarry : Prop :=
  ∀ (x y : Reg) (s : State), ∃ t, exec (.addVxVy x y) s = .next t ∧
    FlagResult s t x (BitVec.ofNat 8 (((s.getV x).toNat + (s.getV y).toNat) % 256))
      (if (s.getV x).toNat + (s.getV y).toNat > 255 then 1 else 0)

/-- 8xy5 and 8xy7 write the difference of the old operands modulo 256 to `V[x]`, then 1 to VF if the minuend is at least the
subtrahend, else 0 (R78, R80, decision D29; VF last when `x = 0xF` is decision D9, log entry 18). -/
def Obligations.SubtractionsSetNotBorrow : Prop :=
  ∀ (x y : Reg) (s : State),
    (∃ t, exec (.subVxVy x y) s = .next t ∧
      FlagResult s t x (BitVec.ofNat 8 (((s.getV x).toNat + 256 - (s.getV y).toNat) % 256))
        (if (s.getV x).toNat ≥ (s.getV y).toNat then 1 else 0)) ∧
    (∃ t, exec (.subnVxVy x y) s = .next t ∧
      FlagResult s t x (BitVec.ofNat 8 (((s.getV y).toNat + 256 - (s.getV x).toNat) % 256))
        (if (s.getV y).toNat ≥ (s.getV x).toNat then 1 else 0))

/-- 8xy6 and 8xyE shift the old `V[y]`, or on SuperChip the old `V[x]`, by one into `V[x]`, then write the bit shifted out to VF (R79,
R81; VF last when `x = 0xF` is decision D9, log entry 18). -/
def Obligations.ShiftsMoveOneBit : Prop :=
  ∀ (x y : Reg) (s : State),
    let v := if s.variant = .superChip then (s.getV x).toNat else (s.getV y).toNat
    (∃ t, exec (.shrVxVy x y) s = .next t ∧ FlagResult s t x (BitVec.ofNat 8 (v / 2)) (if v % 2 = 1 then 1 else 0)) ∧
    (∃ t, exec (.shlVxVy x y) s = .next t ∧
      FlagResult s t x (BitVec.ofNat 8 (v * 2 % 256)) (if v ≥ 128 then 1 else 0))

/-- Cxnn writes some byte masked by `nn` to `V[x]`: the byte is the free value of this draw, so no bit outside `nn` is set, a mask of
0 gives 0, and each execution moves to the next draw; nothing else changes (R82, R115; the form of the free value is log entry 2,
decision D20). -/
def Obligations.RandomByteIsMasked : Prop :=
  ∀ (x : Reg) (nn : Byte) (s : State), ∃ t, exec (.rndVxNn x nn) s = .next t ∧
    (∃ r : Byte, r = Config.randomByte s.draws ∧ t.getV x = r &&& nn) ∧
    t.getV x &&& ~~~nn = 0 ∧ (nn = 0 → t.getV x = 0) ∧
    (∀ r, r ≠ x → t.getV r = s.getV r) ∧ t.draws = s.draws + 1 ∧
    t = { s with V := t.V, draws := t.draws } ∧ SameMemory s t ∧ SameDisplay s t

/-! ### Index register and memory -/

/-- Annn loads `I` with `nnn`, Fx29 with `FONT_BASE + 5 × (V[x] AND 0x0F)`; nothing else changes (R85, R87). -/
def Obligations.IndexLoads : Prop :=
  ∀ (nnn : Imm12) (x : Reg) (s : State),
    decodeWord (formatA 0xA nnn) = .ok (.ldINnn nnn) ∧ decodeWord (formatI 0xF x 0x29) = .ok (.ldFVx x) ∧
    (∃ t, exec (.ldINnn nnn) s = .next t ∧ t.I.toNat = nnn.toNat ∧ t = { s with I := t.I } ∧ SameMemory s t) ∧
    (∃ t, exec (.ldFVx x) s = .next t ∧ t.I.toNat = fontBase + 5 * ((s.getV x).toNat % 16) ∧ t = { s with I := t.I } ∧
      SameMemory s t)

/-- Fx1E adds `V[x]` to `I` modulo 65536 and writes nothing else, VF included (R86; the wrap is decision D6, log entry 23). -/
def Obligations.AddToIndexWraps : Prop :=
  ∀ (x : Reg) (s : State), ∃ t, exec (.addIVx x) s = .next t ∧
    t.I.toNat = (s.I.toNat + (s.getV x).toNat) % 65536 ∧ t = { s with I := t.I } ∧ SameMemory s t

/-- Fx33 stores the hundreds, tens and ones digit of `V[x]` at `I`, `I+1`, `I+2`, every other byte reading as before and nothing else
changed, whenever the three addresses lie in memory; otherwise it faults with the first one that does not (R88; the fault is decision
D4, log entry 16). -/
def Obligations.BcdStoresThreeDigits : Prop :=
  ∀ (x : Reg) (s : State), s.mem.wf →
    (s.I.toNat ≤ 0xFFD → ∃ t, exec (.ldBVx x) s = .next t ∧
      memRead s.I.toNat t = .ok (BitVec.ofNat 8 ((s.getV x).toNat / 100)) ∧
      memRead (s.I.toNat + 1) t = .ok (BitVec.ofNat 8 ((s.getV x).toNat / 10 % 10)) ∧
      memRead (s.I.toNat + 2) t = .ok (BitVec.ofNat 8 ((s.getV x).toNat % 10)) ∧
      (∀ a, a < s.I.toNat ∨ s.I.toNat + 3 ≤ a → memRead a t = memRead a s) ∧ t = { s with mem := t.mem }) ∧
    (0xFFD < s.I.toNat → exec (.ldBVx x) s = .fault (.addressOutOfRange (max s.I.toNat 0x1000)))

/-- Fx55 stores `V[0]`..`V[x]` at `I`..`I+x`, every other byte reading as before, then advances `I` by `x+1` unless on SuperChip;
nothing else changes; it completes whenever the addresses lie in memory and otherwise faults with the first one that does not (R89;
the fault is decision D4, log entry 16). -/
def Obligations.BlockStoreWritesRegisters : Prop :=
  ∀ (x : Reg) (s : State), s.mem.wf →
    (s.I.toNat + x.val ≤ 0xFFF → ∃ t, exec (.ldMemVx x) s = .next t ∧
      (∀ k : Reg, k ≤ x → memRead (s.I.toNat + k.val) t = .ok (s.getV k)) ∧
      (∀ a, a < s.I.toNat ∨ s.I.toNat + x.val < a → memRead a t = memRead a s) ∧
      t.I.toNat = (if s.variant = .superChip then s.I.toNat else s.I.toNat + x.val + 1) ∧
      t = { s with mem := t.mem, I := t.I }) ∧
    (0xFFF < s.I.toNat + x.val → exec (.ldMemVx x) s = .fault (.addressOutOfRange (max s.I.toNat 0x1000)))

/-- Fx65 loads `V[0]`..`V[x]` from `I`..`I+x`, leaving the registers above `V[x]` and memory, then advances `I` by `x+1` unless on
SuperChip; it completes whenever the addresses lie in memory and otherwise faults with the first one that does not (R90; the fault is
decision D4, log entry 16). -/
def Obligations.BlockLoadReadsRegisters : Prop :=
  ∀ (x : Reg) (s : State),
    (s.I.toNat + x.val ≤ 0xFFF → ∃ t, exec (.ldVxMem x) s = .next t ∧
      (∀ k : Reg, k ≤ x → .ok (t.getV k) = memRead (s.I.toNat + k.val) s) ∧
      (∀ k : Reg, x < k → t.getV k = s.getV k) ∧
      t.I.toNat = (if s.variant = .superChip then s.I.toNat else s.I.toNat + x.val + 1) ∧
      t = { s with V := t.V, I := t.I } ∧ SameMemory s t) ∧
    (0xFFF < s.I.toNat + x.val → exec (.ldVxMem x) s = .fault (.addressOutOfRange (max s.I.toNat 0x1000)))

/-- Storing `V[0]`..`V[x]` and loading as many registers back from the same base restores those registers, whatever the register file
held in between (R89, R90). -/
def Obligations.BlockStoreThenLoad : Prop :=
  ∀ (x : Reg) (s t : State) (v : Vector Byte 16), s.mem.wf → exec (.ldMemVx x) s = .next t →
    ∃ u, exec (.ldVxMem x) { t with I := s.I, V := v } = .next u ∧ ∀ k : Reg, k ≤ x → u.getV k = s.getV k

/-- A word that Fx55 stores at `pc` is the word the next step runs: a store is seen by the very next fetch (R42, R39; derived there;
clearing `dirty` is decision D15, log entry 20). -/
def Obligations.StoredWordIsFetchedNext : Prop :=
  ∀ (x k j : Reg) (s t : State) (i : Instr), s.mem.wf → s.status = .running → exec (.ldMemVx x) s = .next t →
    j.val = k.val + 1 → j ≤ x → s.pc.toNat = s.I.toNat + k.val →
    decodeWord (s.getV k ++ s.getV j) = .ok i → i.WellFormed →
      step t = exec i { t with dirty := false, pc := t.pc + 2 }

/-- After construction the five bytes at `FONT_BASE + 5 × digit`, where Fx29 points `I`, are that digit's glyph (R32, R87; base and
glyphs are open parameters, log entries 3 and 4). -/
def Obligations.FontGlyphsAtReset : Prop :=
  ∀ (v : Variant) (x : Reg) (d : Fin 16) (j : Fin 5) (s t : State),
    s.mem = (State.construct v).mem → (s.getV x).toNat = d.val → exec (.ldFVx x) s = .next t →
      memRead (t.I.toNat + j.val) t = .ok (fontByte ⟨5 * d.val + j.val, by omega⟩)

/-! ### Display -/

/-- 00E0 turns every pixel off and sets `dirty`; VF and everything else are unchanged (R93). -/
def Obligations.ClearBlanksDisplay : Prop :=
  decodeWord 0x00E0 = .ok .cls ∧
  ∀ s : State, ∃ t, exec .cls s = .next t ∧ (∀ row col, t.pixel row col = false) ∧ t.dirty = true ∧
    t = { s with fb := t.fb, dirty := t.dirty } ∧ (∀ r, t.getV r = s.getV r) ∧ SameMemory s t

/-- Dxyn XORs the sprite into the display pixel by pixel, clipped at the edges, sets VF to whether a pixel went from on to off and sets
`dirty`; no other register, no memory and nothing else changes (R94, R95, R96; operand order, rows read, bit order and vertical modulus
are decisions D10, D11, D12, D14, log entries 18, 19, 14, 5). -/
def Obligations.DrawIsPixelwiseXor : Prop :=
  ∀ (x y : Reg) (n : Nat) (s : State), (n = 0 ∨ s.I.toNat + n ≤ 0x1000) →
    ∃ t, exec (.drw x y n) s = .next t ∧
      (∀ (row : Fin 32) (col : Fin 64), t.pixel row col = (s.pixel row col ^^ spriteBit s x y n row.val col.val)) ∧
      ((∃ (row : Fin 32) (col : Fin 64), s.pixel row col = true ∧ spriteBit s x y n row.val col.val = true) →
        t.getV vf = 1) ∧
      ((∀ (row : Fin 32) (col : Fin 64), s.pixel row col = true → spriteBit s x y n row.val col.val = false) →
        t.getV vf = 0) ∧
      t.dirty = true ∧ (∀ r, r ≠ vf → t.getV r = s.getV r) ∧
      t = { s with V := t.V, fb := t.fb, dirty := t.dirty } ∧ SameMemory s t

/-- Drawing the same sprite again, from the same registers, restores every pixel; and one of the two draws reports a collision exactly
when the sprite has a 1 bit on the screen (R94; coordinates read before VF is cleared, bit order and vertical modulus are decisions D10,
D12, D14, log entries 18, 14, 5). -/
def Obligations.DrawTwiceRestoresDisplay : Prop :=
  ∀ (x y : Reg) (n : Nat) (s t : State), exec (.drw x y n) s = .next t →
    ∃ u, exec (.drw x y n) { t with V := s.V } = .next u ∧
      (∀ row col, u.pixel row col = s.pixel row col) ∧
      ((t.getV vf = 1 ∨ u.getV vf = 1) ↔ ∃ (row : Fin 32) (col : Fin 64), spriteBit s x y n row.val col.val = true)

/-! ### Timers and keys -/

/-- Fx07 reads the delay timer into `V[x]`, Fx15 writes it from `V[x]`, Fx18 writes the sound timer from `V[x]`; nothing else changes
(R98, R99, R100; which opcode moves which timer is read from the position of the source's cell, log entry 24). -/
def Obligations.TimerMoves : Prop :=
  ∀ (x : Reg) (s : State),
    decodeWord (formatI 0xF x 0x07) = .ok (.ldVxDt x) ∧ decodeWord (formatI 0xF x 0x15) = .ok (.ldDtVx x) ∧
    decodeWord (formatI 0xF x 0x18) = .ok (.ldStVx x) ∧
    (∃ t, exec (.ldVxDt x) s = .next t ∧ t.getV x = s.dt ∧ (∀ r, r ≠ x → t.getV r = s.getV r) ∧ OnlyRegisters s t) ∧
    (∃ t, exec (.ldDtVx x) s = .next t ∧ t = { s with dt := s.getV x } ∧ SameMemory s t) ∧
    (∃ t, exec (.ldStVx x) s = .next t ∧ t = { s with st := s.getV x } ∧ SameMemory s t)

/-- Ex9E skips two bytes when the key `V[x]` is held now, ExA1 when it is not; neither writes anything but `pc`; a key number above 15
faults (R101, R102, R104; the fault and the level test are decisions D7 and D28, log entries 17 and 30). -/
def Obligations.KeySkipsTestCurrentLevel : Prop :=
  ∀ (x : Reg) (s : State),
    (∀ k : Key, (s.getV x).toNat = k.val →
      exec (.skp x) s = .next { s with pc := if s.keyCur[k] = true then s.pc + 2 else s.pc } ∧
      exec (.sknp x) s = .next { s with pc := if s.keyCur[k] = true then s.pc else s.pc + 2 }) ∧
    (15 < (s.getV x).toNat →
      exec (.skp x) s = .fault (.keyIndexOutOfRange (s.getV x)) ∧
      exec (.sknp x) s = .fault (.keyIndexOutOfRange (s.getV x)))

/-- Fx0A with no key released takes `pc` back by 2 and changes nothing else; with some key released it writes the number of one of
them, which one being open, to `V[x]` and changes nothing else (R103; the open choice is decision D8, log entry 7). -/
def Obligations.KeyWaitReportsARelease : Prop :=
  ∀ (x : Reg) (s : State),
    ((∀ k : Key, ¬ (s.keyPrev[k] = true ∧ s.keyCur[k] = false)) → exec (.ldVxK x) s = .next { s with pc := s.pc - 2 }) ∧
    ((∃ k : Key, s.keyPrev[k] = true ∧ s.keyCur[k] = false) →
      ∃ t, exec (.ldVxK x) s = .next t ∧
        (∃ k : Key, s.keyPrev[k] = true ∧ s.keyCur[k] = false ∧ (t.getV x).toNat = k.val) ∧
        (∀ r, r ≠ x → t.getV r = s.getV r) ∧ OnlyRegisters s t)

/-- A step on Fx0A with no key released leaves the core as it was but for `dirty`, so the same instruction is fetched again (R103;
derived there; clearing `dirty` is decision D15, log entry 20). -/
def Obligations.KeyWaitStepRearms : Prop :=
  ∀ (x : Reg) (s : State), s.status = .running → FetchesWord s (formatI 0xF x 0x0A) →
    (∀ k : Key, ¬ (s.keyPrev[k] = true ∧ s.keyCur[k] = false)) → step s = .next { s with dirty := false }

/-! ### Host transactions -/

/-- DecrementTimers takes 1 from each timer, each stopping at 0, and changes nothing else; no instruction but Fx15 and Fx18 changes a
timer, each from `V[x]`, so a Step never decrements one (R109, R19; that Fx15 is the writer of the delay timer and Fx18 of the sound
timer is log entry 24). -/
def Obligations.TimersCountDown : Prop :=
  (∀ s : State, s.status = .running → ∃ t, transact .decrementTimers s = .next (t, .silent) ∧
    t.dt.toNat = s.dt.toNat - 1 ∧ t.st.toNat = s.st.toNat - 1 ∧ t = { s with dt := t.dt, st := t.st } ∧ SameMemory s t) ∧
  ∀ (i : Instr) (s t : State), exec i s = .next t →
    (t.dt = s.dt ∨ ∃ x, i = .ldDtVx x ∧ t.dt = s.getV x) ∧ (t.st = s.st ∨ ∃ x, i = .ldStVx x ∧ t.st = s.getV x)

/-- KeySnapshot copies the current key latch to the previous one, after which no key has a falling edge; KeySet writes one key of the
current latch; neither changes anything else (R110, R111). -/
def Obligations.KeyLatchTransactions : Prop :=
  ∀ s : State, s.status = .running →
    (∃ t, transact .keySnapshot s = .next (t, .silent) ∧ (∀ k : Key, t.keyPrev[k] = s.keyCur[k]) ∧
      (∀ k : Key, ¬ (t.keyPrev[k] = true ∧ t.keyCur[k] = false)) ∧ t = { s with keyPrev := t.keyPrev }) ∧
    ∀ (k : Key) (b : Bool), ∃ t, transact (.keySet k b) s = .next (t, .silent) ∧ t.keyCur[k] = b ∧
      (∀ j : Key, j ≠ k → t.keyCur[j] = s.keyCur[j]) ∧ t = { s with keyCur := t.keyCur }

/-- LoadROM of at most 3584 bytes on a core with no ROM writes them from 0x200 up and sets `loaded`, every other byte reading as before
and nothing else changed; on a core with a ROM it changes nothing and is a diagnostic (R107; loads of any admitted length at any time
are decision D27, log entry 25). -/
def Obligations.LoadRomWritesProgram : Prop :=
  ∀ (bytes : List Byte) (s : State), s.status = .running → s.mem.wf →
    (s.loaded = false → bytes.length ≤ 3584 → ∃ t, transact (.loadRom bytes) s = .next (t, .silent) ∧
      (∀ (k : Nat) (h : k < bytes.length), memRead (0x200 + k) t = .ok bytes[k]) ∧
      (∀ a, a < 0x200 ∨ 0x200 + bytes.length ≤ a → memRead a t = memRead a s) ∧
      t.loaded = true ∧ t = { s with mem := t.mem, loaded := t.loaded }) ∧
    (s.loaded = true → transact (.loadRom bytes) s = .next (s, .diagnostic .romAlreadyLoaded))

/-- DisplayRead gives every pixel and the dirty flag and changes nothing, the dirty flag included (R112). -/
def Obligations.DisplayReadChangesNothing : Prop :=
  ∀ s : State, s.status = .running →
    ∃ f, transact .displayRead s = .next (s, .display f s.dirty) ∧
      ∀ (row : Fin 32) (col : Fin 64), f[row][col] = s.pixel row col

/-! ### The end of a run -/

/-- A finished core (`State.Finished`: a 1nnn at `pc` that jumps to itself) stays finished under every transaction the host can issue
but a Construct and the load of a first ROM: the transaction completes and changes nothing but `dirty`, the timers and the key latches;
a Step changes only `dirty`, which it clears; and any number of Steps back to back ends finished (R138, R61; derived there; the
definition of finished is log entry 31, back to back is log entry 29, clearing `dirty` is decision D15, log entry 20). -/
def Obligations.FinishedCoreStaysFinished : Prop :=
  ∀ s : State, s.Finished →
    (∀ tr : Transaction, (∀ v, tr ≠ .construct v) → (s.loaded = true ∨ ∀ bytes, tr ≠ .loadRom bytes) →
      ∃ t r, transact tr s = .next (t, r) ∧ t.Finished ∧
        t = { s with dirty := t.dirty, dt := t.dt, st := t.st, keyCur := t.keyCur, keyPrev := t.keyPrev }) ∧
    transact .step s = .next ({ s with dirty := false }, .silent) ∧
    ∀ k, FinishesIn k s
end

