-- ==== Sys2Proof/Laws/State.lean ====
section
/-! SUPPORT. One lemma per field per update, true by definition, so that no later proof unfolds a record update. -/

namespace Sys2Proof.Machine

variable (s : State)

/-! ### `State.setV` -/

@[simp] theorem State.setV_mem (r : Reg) (b : Byte) : (s.setV r b).mem = s.mem := rfl
@[simp] theorem State.setV_V (r : Reg) (b : Byte) : (s.setV r b).V = s.V.set r b := rfl
@[simp] theorem State.setV_pc (r : Reg) (b : Byte) : (s.setV r b).pc = s.pc := rfl
@[simp] theorem State.setV_I (r : Reg) (b : Byte) : (s.setV r b).I = s.I := rfl
@[simp] theorem State.setV_stack (r : Reg) (b : Byte) : (s.setV r b).stack = s.stack := rfl
@[simp] theorem State.setV_fb (r : Reg) (b : Byte) : (s.setV r b).fb = s.fb := rfl
@[simp] theorem State.setV_dirty (r : Reg) (b : Byte) : (s.setV r b).dirty = s.dirty := rfl
@[simp] theorem State.setV_dt (r : Reg) (b : Byte) : (s.setV r b).dt = s.dt := rfl
@[simp] theorem State.setV_st (r : Reg) (b : Byte) : (s.setV r b).st = s.st := rfl
@[simp] theorem State.setV_keyCur (r : Reg) (b : Byte) : (s.setV r b).keyCur = s.keyCur := rfl
@[simp] theorem State.setV_keyPrev (r : Reg) (b : Byte) : (s.setV r b).keyPrev = s.keyPrev := rfl
@[simp] theorem State.setV_loaded (r : Reg) (b : Byte) : (s.setV r b).loaded = s.loaded := rfl
@[simp] theorem State.setV_status (r : Reg) (b : Byte) : (s.setV r b).status = s.status := rfl
@[simp] theorem State.setV_variant (r : Reg) (b : Byte) : (s.setV r b).variant = s.variant := rfl
@[simp] theorem State.setV_draws (r : Reg) (b : Byte) : (s.setV r b).draws = s.draws := rfl
@[simp] theorem State.setV_memRead (r : Reg) (b : Byte) (a : Nat) : memRead a (s.setV r b) = memRead a s := rfl
@[simp] theorem State.setV_pixel (r : Reg) (b : Byte) (i : Fin 32) (j : Fin 64) : (s.setV r b).pixel i j = s.pixel i j := rfl

/-! ### `State.setRegs` -/

@[simp] theorem State.setRegs_mem (v : Vector Byte 16) : (s.setRegs v).mem = s.mem := rfl
@[simp] theorem State.setRegs_V (v : Vector Byte 16) : (s.setRegs v).V = v := rfl
@[simp] theorem State.setRegs_pc (v : Vector Byte 16) : (s.setRegs v).pc = s.pc := rfl
@[simp] theorem State.setRegs_I (v : Vector Byte 16) : (s.setRegs v).I = s.I := rfl
@[simp] theorem State.setRegs_stack (v : Vector Byte 16) : (s.setRegs v).stack = s.stack := rfl
@[simp] theorem State.setRegs_fb (v : Vector Byte 16) : (s.setRegs v).fb = s.fb := rfl
@[simp] theorem State.setRegs_dirty (v : Vector Byte 16) : (s.setRegs v).dirty = s.dirty := rfl
@[simp] theorem State.setRegs_dt (v : Vector Byte 16) : (s.setRegs v).dt = s.dt := rfl
@[simp] theorem State.setRegs_st (v : Vector Byte 16) : (s.setRegs v).st = s.st := rfl
@[simp] theorem State.setRegs_keyCur (v : Vector Byte 16) : (s.setRegs v).keyCur = s.keyCur := rfl
@[simp] theorem State.setRegs_keyPrev (v : Vector Byte 16) : (s.setRegs v).keyPrev = s.keyPrev := rfl
@[simp] theorem State.setRegs_loaded (v : Vector Byte 16) : (s.setRegs v).loaded = s.loaded := rfl
@[simp] theorem State.setRegs_status (v : Vector Byte 16) : (s.setRegs v).status = s.status := rfl
@[simp] theorem State.setRegs_variant (v : Vector Byte 16) : (s.setRegs v).variant = s.variant := rfl
@[simp] theorem State.setRegs_draws (v : Vector Byte 16) : (s.setRegs v).draws = s.draws := rfl
@[simp] theorem State.setRegs_memRead (v : Vector Byte 16) (a : Nat) : memRead a (s.setRegs v) = memRead a s := rfl
@[simp] theorem State.setRegs_pixel (v : Vector Byte 16) (i : Fin 32) (j : Fin 64) : (s.setRegs v).pixel i j = s.pixel i j := rfl

/-! ### `State.setPc` -/

@[simp] theorem State.setPc_mem (w : Word) : (s.setPc w).mem = s.mem := rfl
@[simp] theorem State.setPc_V (w : Word) : (s.setPc w).V = s.V := rfl
@[simp] theorem State.setPc_pc (w : Word) : (s.setPc w).pc = w := rfl
@[simp] theorem State.setPc_I (w : Word) : (s.setPc w).I = s.I := rfl
@[simp] theorem State.setPc_stack (w : Word) : (s.setPc w).stack = s.stack := rfl
@[simp] theorem State.setPc_fb (w : Word) : (s.setPc w).fb = s.fb := rfl
@[simp] theorem State.setPc_dirty (w : Word) : (s.setPc w).dirty = s.dirty := rfl
@[simp] theorem State.setPc_dt (w : Word) : (s.setPc w).dt = s.dt := rfl
@[simp] theorem State.setPc_st (w : Word) : (s.setPc w).st = s.st := rfl
@[simp] theorem State.setPc_keyCur (w : Word) : (s.setPc w).keyCur = s.keyCur := rfl
@[simp] theorem State.setPc_keyPrev (w : Word) : (s.setPc w).keyPrev = s.keyPrev := rfl
@[simp] theorem State.setPc_loaded (w : Word) : (s.setPc w).loaded = s.loaded := rfl
@[simp] theorem State.setPc_status (w : Word) : (s.setPc w).status = s.status := rfl
@[simp] theorem State.setPc_variant (w : Word) : (s.setPc w).variant = s.variant := rfl
@[simp] theorem State.setPc_draws (w : Word) : (s.setPc w).draws = s.draws := rfl
@[simp] theorem State.setPc_getV (w : Word) (q : Reg) : (s.setPc w).getV q = s.getV q := rfl
@[simp] theorem State.setPc_memRead (w : Word) (a : Nat) : memRead a (s.setPc w) = memRead a s := rfl
@[simp] theorem State.setPc_pixel (w : Word) (i : Fin 32) (j : Fin 64) : (s.setPc w).pixel i j = s.pixel i j := rfl

/-! ### `State.setI` -/

@[simp] theorem State.setI_mem (w : Word) : (s.setI w).mem = s.mem := rfl
@[simp] theorem State.setI_V (w : Word) : (s.setI w).V = s.V := rfl
@[simp] theorem State.setI_pc (w : Word) : (s.setI w).pc = s.pc := rfl
@[simp] theorem State.setI_I (w : Word) : (s.setI w).I = w := rfl
@[simp] theorem State.setI_stack (w : Word) : (s.setI w).stack = s.stack := rfl
@[simp] theorem State.setI_fb (w : Word) : (s.setI w).fb = s.fb := rfl
@[simp] theorem State.setI_dirty (w : Word) : (s.setI w).dirty = s.dirty := rfl
@[simp] theorem State.setI_dt (w : Word) : (s.setI w).dt = s.dt := rfl
@[simp] theorem State.setI_st (w : Word) : (s.setI w).st = s.st := rfl
@[simp] theorem State.setI_keyCur (w : Word) : (s.setI w).keyCur = s.keyCur := rfl
@[simp] theorem State.setI_keyPrev (w : Word) : (s.setI w).keyPrev = s.keyPrev := rfl
@[simp] theorem State.setI_loaded (w : Word) : (s.setI w).loaded = s.loaded := rfl
@[simp] theorem State.setI_status (w : Word) : (s.setI w).status = s.status := rfl
@[simp] theorem State.setI_variant (w : Word) : (s.setI w).variant = s.variant := rfl
@[simp] theorem State.setI_draws (w : Word) : (s.setI w).draws = s.draws := rfl
@[simp] theorem State.setI_getV (w : Word) (q : Reg) : (s.setI w).getV q = s.getV q := rfl
@[simp] theorem State.setI_memRead (w : Word) (a : Nat) : memRead a (s.setI w) = memRead a s := rfl
@[simp] theorem State.setI_pixel (w : Word) (i : Fin 32) (j : Fin 64) : (s.setI w).pixel i j = s.pixel i j := rfl

/-! ### `State.setStack` -/

@[simp] theorem State.setStack_mem (l : List Word) : (s.setStack l).mem = s.mem := rfl
@[simp] theorem State.setStack_V (l : List Word) : (s.setStack l).V = s.V := rfl
@[simp] theorem State.setStack_pc (l : List Word) : (s.setStack l).pc = s.pc := rfl
@[simp] theorem State.setStack_I (l : List Word) : (s.setStack l).I = s.I := rfl
@[simp] theorem State.setStack_stack (l : List Word) : (s.setStack l).stack = l := rfl
@[simp] theorem State.setStack_fb (l : List Word) : (s.setStack l).fb = s.fb := rfl
@[simp] theorem State.setStack_dirty (l : List Word) : (s.setStack l).dirty = s.dirty := rfl
@[simp] theorem State.setStack_dt (l : List Word) : (s.setStack l).dt = s.dt := rfl
@[simp] theorem State.setStack_st (l : List Word) : (s.setStack l).st = s.st := rfl
@[simp] theorem State.setStack_keyCur (l : List Word) : (s.setStack l).keyCur = s.keyCur := rfl
@[simp] theorem State.setStack_keyPrev (l : List Word) : (s.setStack l).keyPrev = s.keyPrev := rfl
@[simp] theorem State.setStack_loaded (l : List Word) : (s.setStack l).loaded = s.loaded := rfl
@[simp] theorem State.setStack_status (l : List Word) : (s.setStack l).status = s.status := rfl
@[simp] theorem State.setStack_variant (l : List Word) : (s.setStack l).variant = s.variant := rfl
@[simp] theorem State.setStack_draws (l : List Word) : (s.setStack l).draws = s.draws := rfl
@[simp] theorem State.setStack_getV (l : List Word) (q : Reg) : (s.setStack l).getV q = s.getV q := rfl
@[simp] theorem State.setStack_memRead (l : List Word) (a : Nat) : memRead a (s.setStack l) = memRead a s := rfl
@[simp] theorem State.setStack_pixel (l : List Word) (i : Fin 32) (j : Fin 64) : (s.setStack l).pixel i j = s.pixel i j := rfl

/-! ### `State.setFb` -/

@[simp] theorem State.setFb_mem (f : Framebuffer) : (s.setFb f).mem = s.mem := rfl
@[simp] theorem State.setFb_V (f : Framebuffer) : (s.setFb f).V = s.V := rfl
@[simp] theorem State.setFb_pc (f : Framebuffer) : (s.setFb f).pc = s.pc := rfl
@[simp] theorem State.setFb_I (f : Framebuffer) : (s.setFb f).I = s.I := rfl
@[simp] theorem State.setFb_stack (f : Framebuffer) : (s.setFb f).stack = s.stack := rfl
@[simp] theorem State.setFb_fb (f : Framebuffer) : (s.setFb f).fb = f := rfl
@[simp] theorem State.setFb_dirty (f : Framebuffer) : (s.setFb f).dirty = s.dirty := rfl
@[simp] theorem State.setFb_dt (f : Framebuffer) : (s.setFb f).dt = s.dt := rfl
@[simp] theorem State.setFb_st (f : Framebuffer) : (s.setFb f).st = s.st := rfl
@[simp] theorem State.setFb_keyCur (f : Framebuffer) : (s.setFb f).keyCur = s.keyCur := rfl
@[simp] theorem State.setFb_keyPrev (f : Framebuffer) : (s.setFb f).keyPrev = s.keyPrev := rfl
@[simp] theorem State.setFb_loaded (f : Framebuffer) : (s.setFb f).loaded = s.loaded := rfl
@[simp] theorem State.setFb_status (f : Framebuffer) : (s.setFb f).status = s.status := rfl
@[simp] theorem State.setFb_variant (f : Framebuffer) : (s.setFb f).variant = s.variant := rfl
@[simp] theorem State.setFb_draws (f : Framebuffer) : (s.setFb f).draws = s.draws := rfl
@[simp] theorem State.setFb_getV (f : Framebuffer) (q : Reg) : (s.setFb f).getV q = s.getV q := rfl
@[simp] theorem State.setFb_memRead (f : Framebuffer) (a : Nat) : memRead a (s.setFb f) = memRead a s := rfl

/-! ### `State.setDirty` -/

@[simp] theorem State.setDirty_mem (b : Bool) : (s.setDirty b).mem = s.mem := rfl
@[simp] theorem State.setDirty_V (b : Bool) : (s.setDirty b).V = s.V := rfl
@[simp] theorem State.setDirty_pc (b : Bool) : (s.setDirty b).pc = s.pc := rfl
@[simp] theorem State.setDirty_I (b : Bool) : (s.setDirty b).I = s.I := rfl
@[simp] theorem State.setDirty_stack (b : Bool) : (s.setDirty b).stack = s.stack := rfl
@[simp] theorem State.setDirty_fb (b : Bool) : (s.setDirty b).fb = s.fb := rfl
@[simp] theorem State.setDirty_dirty (b : Bool) : (s.setDirty b).dirty = b := rfl
@[simp] theorem State.setDirty_dt (b : Bool) : (s.setDirty b).dt = s.dt := rfl
@[simp] theorem State.setDirty_st (b : Bool) : (s.setDirty b).st = s.st := rfl
@[simp] theorem State.setDirty_keyCur (b : Bool) : (s.setDirty b).keyCur = s.keyCur := rfl
@[simp] theorem State.setDirty_keyPrev (b : Bool) : (s.setDirty b).keyPrev = s.keyPrev := rfl
@[simp] theorem State.setDirty_loaded (b : Bool) : (s.setDirty b).loaded = s.loaded := rfl
@[simp] theorem State.setDirty_status (b : Bool) : (s.setDirty b).status = s.status := rfl
@[simp] theorem State.setDirty_variant (b : Bool) : (s.setDirty b).variant = s.variant := rfl
@[simp] theorem State.setDirty_draws (b : Bool) : (s.setDirty b).draws = s.draws := rfl
@[simp] theorem State.setDirty_getV (b : Bool) (q : Reg) : (s.setDirty b).getV q = s.getV q := rfl
@[simp] theorem State.setDirty_memRead (b : Bool) (a : Nat) : memRead a (s.setDirty b) = memRead a s := rfl
@[simp] theorem State.setDirty_pixel (b : Bool) (i : Fin 32) (j : Fin 64) : (s.setDirty b).pixel i j = s.pixel i j := rfl

/-! ### `State.setDt` -/

@[simp] theorem State.setDt_mem (b : Byte) : (s.setDt b).mem = s.mem := rfl
@[simp] theorem State.setDt_V (b : Byte) : (s.setDt b).V = s.V := rfl
@[simp] theorem State.setDt_pc (b : Byte) : (s.setDt b).pc = s.pc := rfl
@[simp] theorem State.setDt_I (b : Byte) : (s.setDt b).I = s.I := rfl
@[simp] theorem State.setDt_stack (b : Byte) : (s.setDt b).stack = s.stack := rfl
@[simp] theorem State.setDt_fb (b : Byte) : (s.setDt b).fb = s.fb := rfl
@[simp] theorem State.setDt_dirty (b : Byte) : (s.setDt b).dirty = s.dirty := rfl
@[simp] theorem State.setDt_dt (b : Byte) : (s.setDt b).dt = b := rfl
@[simp] theorem State.setDt_st (b : Byte) : (s.setDt b).st = s.st := rfl
@[simp] theorem State.setDt_keyCur (b : Byte) : (s.setDt b).keyCur = s.keyCur := rfl
@[simp] theorem State.setDt_keyPrev (b : Byte) : (s.setDt b).keyPrev = s.keyPrev := rfl
@[simp] theorem State.setDt_loaded (b : Byte) : (s.setDt b).loaded = s.loaded := rfl
@[simp] theorem State.setDt_status (b : Byte) : (s.setDt b).status = s.status := rfl
@[simp] theorem State.setDt_variant (b : Byte) : (s.setDt b).variant = s.variant := rfl
@[simp] theorem State.setDt_draws (b : Byte) : (s.setDt b).draws = s.draws := rfl
@[simp] theorem State.setDt_getV (b : Byte) (q : Reg) : (s.setDt b).getV q = s.getV q := rfl
@[simp] theorem State.setDt_memRead (b : Byte) (a : Nat) : memRead a (s.setDt b) = memRead a s := rfl
@[simp] theorem State.setDt_pixel (b : Byte) (i : Fin 32) (j : Fin 64) : (s.setDt b).pixel i j = s.pixel i j := rfl

/-! ### `State.setSt` -/

@[simp] theorem State.setSt_mem (b : Byte) : (s.setSt b).mem = s.mem := rfl
@[simp] theorem State.setSt_V (b : Byte) : (s.setSt b).V = s.V := rfl
@[simp] theorem State.setSt_pc (b : Byte) : (s.setSt b).pc = s.pc := rfl
@[simp] theorem State.setSt_I (b : Byte) : (s.setSt b).I = s.I := rfl
@[simp] theorem State.setSt_stack (b : Byte) : (s.setSt b).stack = s.stack := rfl
@[simp] theorem State.setSt_fb (b : Byte) : (s.setSt b).fb = s.fb := rfl
@[simp] theorem State.setSt_dirty (b : Byte) : (s.setSt b).dirty = s.dirty := rfl
@[simp] theorem State.setSt_dt (b : Byte) : (s.setSt b).dt = s.dt := rfl
@[simp] theorem State.setSt_st (b : Byte) : (s.setSt b).st = b := rfl
@[simp] theorem State.setSt_keyCur (b : Byte) : (s.setSt b).keyCur = s.keyCur := rfl
@[simp] theorem State.setSt_keyPrev (b : Byte) : (s.setSt b).keyPrev = s.keyPrev := rfl
@[simp] theorem State.setSt_loaded (b : Byte) : (s.setSt b).loaded = s.loaded := rfl
@[simp] theorem State.setSt_status (b : Byte) : (s.setSt b).status = s.status := rfl
@[simp] theorem State.setSt_variant (b : Byte) : (s.setSt b).variant = s.variant := rfl
@[simp] theorem State.setSt_draws (b : Byte) : (s.setSt b).draws = s.draws := rfl
@[simp] theorem State.setSt_getV (b : Byte) (q : Reg) : (s.setSt b).getV q = s.getV q := rfl
@[simp] theorem State.setSt_memRead (b : Byte) (a : Nat) : memRead a (s.setSt b) = memRead a s := rfl
@[simp] theorem State.setSt_pixel (b : Byte) (i : Fin 32) (j : Fin 64) : (s.setSt b).pixel i j = s.pixel i j := rfl

/-! ### `State.setMem` -/

@[simp] theorem State.setMem_mem (m : Memory) : (s.setMem m).mem = m := rfl
@[simp] theorem State.setMem_V (m : Memory) : (s.setMem m).V = s.V := rfl
@[simp] theorem State.setMem_pc (m : Memory) : (s.setMem m).pc = s.pc := rfl
@[simp] theorem State.setMem_I (m : Memory) : (s.setMem m).I = s.I := rfl
@[simp] theorem State.setMem_stack (m : Memory) : (s.setMem m).stack = s.stack := rfl
@[simp] theorem State.setMem_fb (m : Memory) : (s.setMem m).fb = s.fb := rfl
@[simp] theorem State.setMem_dirty (m : Memory) : (s.setMem m).dirty = s.dirty := rfl
@[simp] theorem State.setMem_dt (m : Memory) : (s.setMem m).dt = s.dt := rfl
@[simp] theorem State.setMem_st (m : Memory) : (s.setMem m).st = s.st := rfl
@[simp] theorem State.setMem_keyCur (m : Memory) : (s.setMem m).keyCur = s.keyCur := rfl
@[simp] theorem State.setMem_keyPrev (m : Memory) : (s.setMem m).keyPrev = s.keyPrev := rfl
@[simp] theorem State.setMem_loaded (m : Memory) : (s.setMem m).loaded = s.loaded := rfl
@[simp] theorem State.setMem_status (m : Memory) : (s.setMem m).status = s.status := rfl
@[simp] theorem State.setMem_variant (m : Memory) : (s.setMem m).variant = s.variant := rfl
@[simp] theorem State.setMem_draws (m : Memory) : (s.setMem m).draws = s.draws := rfl
@[simp] theorem State.setMem_getV (m : Memory) (q : Reg) : (s.setMem m).getV q = s.getV q := rfl
@[simp] theorem State.setMem_pixel (m : Memory) (i : Fin 32) (j : Fin 64) : (s.setMem m).pixel i j = s.pixel i j := rfl

/-! ### `State.setDraws` -/

@[simp] theorem State.setDraws_mem (n : Nat) : (s.setDraws n).mem = s.mem := rfl
@[simp] theorem State.setDraws_V (n : Nat) : (s.setDraws n).V = s.V := rfl
@[simp] theorem State.setDraws_pc (n : Nat) : (s.setDraws n).pc = s.pc := rfl
@[simp] theorem State.setDraws_I (n : Nat) : (s.setDraws n).I = s.I := rfl
@[simp] theorem State.setDraws_stack (n : Nat) : (s.setDraws n).stack = s.stack := rfl
@[simp] theorem State.setDraws_fb (n : Nat) : (s.setDraws n).fb = s.fb := rfl
@[simp] theorem State.setDraws_dirty (n : Nat) : (s.setDraws n).dirty = s.dirty := rfl
@[simp] theorem State.setDraws_dt (n : Nat) : (s.setDraws n).dt = s.dt := rfl
@[simp] theorem State.setDraws_st (n : Nat) : (s.setDraws n).st = s.st := rfl
@[simp] theorem State.setDraws_keyCur (n : Nat) : (s.setDraws n).keyCur = s.keyCur := rfl
@[simp] theorem State.setDraws_keyPrev (n : Nat) : (s.setDraws n).keyPrev = s.keyPrev := rfl
@[simp] theorem State.setDraws_loaded (n : Nat) : (s.setDraws n).loaded = s.loaded := rfl
@[simp] theorem State.setDraws_status (n : Nat) : (s.setDraws n).status = s.status := rfl
@[simp] theorem State.setDraws_variant (n : Nat) : (s.setDraws n).variant = s.variant := rfl
@[simp] theorem State.setDraws_draws (n : Nat) : (s.setDraws n).draws = n := rfl
@[simp] theorem State.setDraws_getV (n : Nat) (q : Reg) : (s.setDraws n).getV q = s.getV q := rfl
@[simp] theorem State.setDraws_memRead (n : Nat) (a : Nat) : memRead a (s.setDraws n) = memRead a s := rfl
@[simp] theorem State.setDraws_pixel (n : Nat) (i : Fin 32) (j : Fin 64) : (s.setDraws n).pixel i j = s.pixel i j := rfl

/-! ### `State.advanced` -/

@[simp] theorem State.advanced_mem : s.advanced.mem = s.mem := rfl
@[simp] theorem State.advanced_V : s.advanced.V = s.V := rfl
@[simp] theorem State.advanced_pc : s.advanced.pc = s.pc + 2 := rfl
@[simp] theorem State.advanced_I : s.advanced.I = s.I := rfl
@[simp] theorem State.advanced_stack : s.advanced.stack = s.stack := rfl
@[simp] theorem State.advanced_fb : s.advanced.fb = s.fb := rfl
@[simp] theorem State.advanced_dirty : s.advanced.dirty = false := rfl
@[simp] theorem State.advanced_dt : s.advanced.dt = s.dt := rfl
@[simp] theorem State.advanced_st : s.advanced.st = s.st := rfl
@[simp] theorem State.advanced_keyCur : s.advanced.keyCur = s.keyCur := rfl
@[simp] theorem State.advanced_keyPrev : s.advanced.keyPrev = s.keyPrev := rfl
@[simp] theorem State.advanced_loaded : s.advanced.loaded = s.loaded := rfl
@[simp] theorem State.advanced_status : s.advanced.status = s.status := rfl
@[simp] theorem State.advanced_variant : s.advanced.variant = s.variant := rfl
@[simp] theorem State.advanced_draws : s.advanced.draws = s.draws := rfl
@[simp] theorem State.advanced_getV (q : Reg) : s.advanced.getV q = s.getV q := rfl
@[simp] theorem State.advanced_memRead (a : Nat) : memRead a s.advanced = memRead a s := rfl
@[simp] theorem State.advanced_pixel (i : Fin 32) (j : Fin 64) : s.advanced.pixel i j = s.pixel i j := rfl

/-! ### `State.halted` (R124) -/

@[simp] theorem State.halted_status (c : Fault) : (s.halted c).status = .faulted c := rfl
@[simp] theorem State.halted_variant (c : Fault) : (s.halted c).variant = s.variant := rfl

end Sys2Proof.Machine
end

