-- ==== Sys2Proof/Laws/Control.lean ====
section
/-! SUPPORT. What the shared control operations do: the skip, push and pop, a call, and how a meaning ends. -/

namespace Sys2Proof.Machine

/-- A skip changes `pc` and nothing else (R68). -/
theorem skipIf_eq (c : Bool) (s : State) : skipIf c s = { s with pc := if c = true then s.pc + 2 else s.pc } := by
  cases c <;> rfl

@[simp] theorem skipIf_true (s : State) : skipIf true s = s.setPc (s.pc + 2) := rfl

@[simp] theorem skipIf_false (s : State) : skipIf false s = s := rfl

/-- A push on the unbounded stack completes (R15, R62). -/
@[simp] theorem pushReturn_none (w : Word) (s : State) : pushReturn none w s = .ok (s.setStack (w :: s.stack)) := rfl

/-- A push on a bounded stack completes exactly when there is room (R122). -/
theorem pushReturn_some (n : Nat) (w : Word) (s : State) :
    pushReturn (some n) w s = if s.stack.length < n then .ok (s.setStack (w :: s.stack)) else .error .stackOverflow := rfl

/-- A pop takes the return address pushed last, or underflows (R60). -/
theorem popReturn_cons {s : State} {w : Word} {rest : List Word} (h : s.stack = w :: rest) :
    popReturn s = .ok ((s.setStack rest).setPc w) := by simp [popReturn, h]

theorem popReturn_nil {s : State} (h : s.stack = []) : popReturn s = .error .stackUnderflow := by simp [popReturn, h]

/-- A meaning that ends in a next state ended without a fault, and the other way round. -/
@[simp] theorem finish_next {r : Except Fault State} {t : State} : finish r = .next t ↔ r = .ok t := by
  cases r <;> simp [finish, raise]

@[simp] theorem finish_fault {r : Except Fault State} {c : Fault} : finish r = .fault c ↔ r = .error c := by
  cases r <;> simp [finish, raise]

@[simp] theorem finish_refused {r : Except Fault State} {q : Refusal} : ¬ finish r = .refused q := by
  cases r <;> simp [finish, raise]

/-- The call with the source's unbounded stack (R62). -/
theorem execCall_eq (nnn : Imm12) (s : State) :
    execCall nnn s = .next ((s.setStack (s.pc :: s.stack)).setPc (zextImm nnn)) := rfl

end Sys2Proof.Machine
end

