-- ==== Sys2Proof/Laws/Decode.lean ====
section
/-! SUPPORT. The fields of an encoded word (spec 30_encoding.md R47, R48), the bytes of a word, and the opcode table's rows
being disjoint (R51). -/

namespace Sys2Proof

/-! ### Fields of a format -/

theorem opField_formatA (op : BitVec 4) (nnn : Imm12) : opField (formatA op nnn) = op := by
  apply BitVec.eq_of_getLsbD_eq
  intro i hi
  simp only [opField, formatA, BitVec.getLsbD_extractLsb', BitVec.getLsbD_append]
  simp [hi]

theorem nnnField_formatA (op : BitVec 4) (nnn : Imm12) : nnnField (formatA op nnn) = nnn := by
  apply BitVec.eq_of_getLsbD_eq
  intro i hi
  simp only [nnnField, formatA, BitVec.getLsbD_extractLsb', BitVec.getLsbD_append]
  simp [hi]

theorem opField_formatI (op : BitVec 4) (x : Reg) (nn : Byte) : opField (formatI op x nn) = op := by
  apply BitVec.eq_of_getLsbD_eq
  intro i hi
  have h1 : ¬ 12 + i < 8 := by omega
  have h2 : ¬ 12 + i - 8 < 4 := by omega
  simp only [opField, formatI, BitVec.getLsbD_extractLsb', BitVec.getLsbD_append]
  simp [hi, h1, h2,
    show 12 + i - 8 - 4 = i by omega]

theorem xField_formatI (op : BitVec 4) (x : Reg) (nn : Byte) : xField (formatI op x nn) = x := by
  have : (formatI op x nn).extractLsb' 8 4 = BitVec.ofFin x := by
    apply BitVec.eq_of_getLsbD_eq
    intro i hi
    simp only [formatI, BitVec.getLsbD_extractLsb', BitVec.getLsbD_append]
    simp [hi]
  rw [xField, this]

theorem nnField_formatI (op : BitVec 4) (x : Reg) (nn : Byte) : nnField (formatI op x nn) = nn := by
  apply BitVec.eq_of_getLsbD_eq
  intro i hi
  simp only [nnField, formatI, BitVec.getLsbD_extractLsb', BitVec.getLsbD_append]
  simp [hi]

theorem opField_formatR (op : BitVec 4) (x y : Reg) (n : BitVec 4) : opField (formatR op x y n) = op := by
  apply BitVec.eq_of_getLsbD_eq
  intro i hi
  have h1 : ¬ 12 + i < 4 := by omega
  have h2 : ¬ 12 + i - 4 < 4 := by omega
  have h3 : ¬ 12 + i - 4 - 4 < 4 := by omega
  simp only [opField, formatR, BitVec.getLsbD_extractLsb', BitVec.getLsbD_append]
  simp [hi, h1, h2, h3,
    show 12 + i - 4 - 4 - 4 = i by omega]

theorem xField_formatR (op : BitVec 4) (x y : Reg) (n : BitVec 4) : xField (formatR op x y n) = x := by
  have : (formatR op x y n).extractLsb' 8 4 = BitVec.ofFin x := by
    apply BitVec.eq_of_getLsbD_eq
    intro i hi
    have h1 : ¬ 8 + i < 4 := by omega
    have h2 : ¬ 8 + i - 4 < 4 := by omega
    simp only [formatR, BitVec.getLsbD_extractLsb', BitVec.getLsbD_append]
    simp [hi, h1, h2, show 8 + i - 4 - 4 = i by omega]
  rw [xField, this]

theorem yField_formatR (op : BitVec 4) (x y : Reg) (n : BitVec 4) : yField (formatR op x y n) = y := by
  have : (formatR op x y n).extractLsb' 4 4 = BitVec.ofFin y := by
    apply BitVec.eq_of_getLsbD_eq
    intro i hi
    simp only [formatR, BitVec.getLsbD_extractLsb', BitVec.getLsbD_append]
    simp [hi]
  rw [yField, this]

theorem nField_formatR (op : BitVec 4) (x y : Reg) (n : BitVec 4) : nField (formatR op x y n) = n := by
  apply BitVec.eq_of_getLsbD_eq
  intro i hi
  simp only [nField, formatR, BitVec.getLsbD_extractLsb', BitVec.getLsbD_append]
  simp [hi]

/-! ### A word from its fields -/

theorem formatA_fields (w : Word) : formatA (opField w) (nnnField w) = w := by
  apply BitVec.eq_of_getLsbD_eq
  intro i hi
  by_cases h : i < 12
  · simp only [opField, nnnField, formatA, BitVec.getLsbD_extractLsb', BitVec.getLsbD_append]
    simp [h]
  · simp only [opField, nnnField, formatA, BitVec.getLsbD_extractLsb', BitVec.getLsbD_append]
    simp [h,
      show i - 12 < 4 by omega, show 12 + (i - 12) = i by omega]

theorem formatI_fields (w : Word) : formatI (opField w) (xField w) (nnField w) = w := by
  apply BitVec.eq_of_getLsbD_eq
  intro i hi
  have e : (BitVec.ofFin (xField w) : BitVec 4) = w.extractLsb' 8 4 := rfl
  rw [formatI, e]
  by_cases h : i < 8
  · simp only [opField, nnField, BitVec.getLsbD_extractLsb', BitVec.getLsbD_append]
    simp [h]
  · by_cases h' : i - 8 < 4
    · simp only [opField, nnField, BitVec.getLsbD_extractLsb', BitVec.getLsbD_append]
      simp [h, h', show 8 + (i - 8) = i by omega]
    · simp only [opField, nnField, BitVec.getLsbD_extractLsb', BitVec.getLsbD_append]
      simp [h, h',
        show i - 8 - 4 < 4 by omega, show 12 + (i - 8 - 4) = i by omega]

theorem formatR_fields (w : Word) : formatR (opField w) (xField w) (yField w) (nField w) = w := by
  apply BitVec.eq_of_getLsbD_eq
  intro i hi
  have ex : (BitVec.ofFin (xField w) : BitVec 4) = w.extractLsb' 8 4 := rfl
  have ey : (BitVec.ofFin (yField w) : BitVec 4) = w.extractLsb' 4 4 := rfl
  rw [formatR, ex, ey]
  by_cases h : i < 4
  · simp only [opField, nField, BitVec.getLsbD_extractLsb', BitVec.getLsbD_append]
    simp [h]
  · by_cases h' : i - 4 < 4
    · simp only [opField, nField, BitVec.getLsbD_extractLsb', BitVec.getLsbD_append]
      simp [h, h', show 4 + (i - 4) = i by omega]
    · by_cases h'' : i - 4 - 4 < 4
      · simp only [opField, nField, BitVec.getLsbD_extractLsb', BitVec.getLsbD_append]
        simp [h, h', h'',
          show 8 + (i - 4 - 4) = i by omega]
      · simp only [opField, nField, BitVec.getLsbD_extractLsb', BitVec.getLsbD_append]
        simp [h, h', h'',
          show i - 4 - 4 - 4 < 4 by omega, show 12 + (i - 4 - 4 - 4) = i by omega]

/-! ### The decoder by leading nibble (R51) -/

theorem decodeWord_op0 {w : Word} (h : opField w = 0x0#4) : decodeWord w = decode0 w := by
  unfold decodeWord; rw [h]; rfl

theorem decodeWord_op1 {w : Word} (h : opField w = 0x1#4) : decodeWord w = .ok (.jp (nnnField w)) := by
  unfold decodeWord; rw [h]; rfl

theorem decodeWord_op2 {w : Word} (h : opField w = 0x2#4) : decodeWord w = .ok (.call (nnnField w)) := by
  unfold decodeWord; rw [h]; rfl

theorem decodeWord_op3 {w : Word} (h : opField w = 0x3#4) : decodeWord w = .ok (.seVxNn (xField w) (nnField w)) := by
  unfold decodeWord; rw [h]; rfl

theorem decodeWord_op4 {w : Word} (h : opField w = 0x4#4) : decodeWord w = .ok (.sneVxNn (xField w) (nnField w)) := by
  unfold decodeWord; rw [h]; rfl

theorem decodeWord_op5 {w : Word} (h : opField w = 0x5#4) : decodeWord w = decode5 w := by
  unfold decodeWord; rw [h]; rfl

theorem decodeWord_op6 {w : Word} (h : opField w = 0x6#4) : decodeWord w = .ok (.ldVxNn (xField w) (nnField w)) := by
  unfold decodeWord; rw [h]; rfl

theorem decodeWord_op7 {w : Word} (h : opField w = 0x7#4) : decodeWord w = .ok (.addVxNn (xField w) (nnField w)) := by
  unfold decodeWord; rw [h]; rfl

theorem decodeWord_op8 {w : Word} (h : opField w = 0x8#4) : decodeWord w = decode8 w := by
  unfold decodeWord; rw [h]; rfl

theorem decodeWord_op9 {w : Word} (h : opField w = 0x9#4) : decodeWord w = decode9 w := by
  unfold decodeWord; rw [h]; rfl

theorem decodeWord_opA {w : Word} (h : opField w = 0xA#4) : decodeWord w = .ok (.ldINnn (nnnField w)) := by
  unfold decodeWord; rw [h]; rfl

theorem decodeWord_opB {w : Word} (h : opField w = 0xB#4) : decodeWord w = .ok (.jpV0Nnn (nnnField w)) := by
  unfold decodeWord; rw [h]; rfl

theorem decodeWord_opC {w : Word} (h : opField w = 0xC#4) : decodeWord w = .ok (.rndVxNn (xField w) (nnField w)) := by
  unfold decodeWord; rw [h]; rfl

theorem decodeWord_opD {w : Word} (h : opField w = 0xD#4) : decodeWord w = .ok (.drw (xField w) (yField w) (nField w).toNat) := by
  unfold decodeWord; rw [h]; rfl

theorem decodeWord_opE {w : Word} (h : opField w = 0xE#4) : decodeWord w = decodeE w := by
  unfold decodeWord; rw [h]; rfl

theorem decodeWord_opF {w : Word} (h : opField w = 0xF#4) : decodeWord w = decodeF w := by
  unfold decodeWord; rw [h]; rfl

/-! ### Bytes of a word -/

/-- The two bytes of a word, combined big-endian, are the word (R36, R46). -/
theorem assembleWord_bytes (w : Word) : assembleWord (highByte w) (lowByte w) = w := by
  apply BitVec.eq_of_getLsbD_eq
  intro i hi
  by_cases h : i < 8
  · simp only [assembleWord, highByte, lowByte, BitVec.getLsbD_extractLsb', BitVec.getLsbD_append]
    simp [h]
  · simp only [assembleWord, highByte, lowByte, BitVec.getLsbD_extractLsb', BitVec.getLsbD_append]
    simp [h,
      show i - 8 < 8 by omega, show 8 + (i - 8) = i by omega]

/-! ### The opcode table (R51) -/

/-- Two rows differ in a bit that both fix, so that no word matches both. -/
def OpcodeRow.clash (r q : OpcodeRow) : Bool := r.pattern &&& (r.mask &&& q.mask) != q.pattern &&& (r.mask &&& q.mask)

/-- No two rows overlap (R51). -/
theorem opcodeTable_disjoint : opcodeTable.Pairwise (fun r q => r.clash q = true) := by decide

theorem OpcodeRow.not_both {r q : OpcodeRow} (h : r.clash q = true) (w : Word) (hr : r.accepts w = true) :
    q.accepts w = false := by
  simp only [OpcodeRow.accepts, OpcodeRow.clash, beq_iff_eq, bne_iff_ne, beq_eq_false_iff_ne] at *
  intro hq
  apply h
  rw [← hr, ← hq, BitVec.and_assoc, BitVec.and_assoc]
  congr 1
  apply BitVec.eq_of_getLsbD_eq
  intro i _
  simp only [BitVec.getLsbD_and]
  cases r.mask.getLsbD i <;> cases q.mask.getLsbD i <;> rfl

/-- Every instruction's row is in the table. -/
theorem Instr.row_mem (i : Instr) : i.row ∈ opcodeTable := by
  cases i <;> simp [opcodeTable, Instr.row]

end Sys2Proof
end

