-- ==== Sys2Proof/Laws/Memory.lean ====
section
/-! SUPPORT. What the memory operations do: read after write, the canonical form kept, and the access primitives and their
multi-byte forms (spec 20_memory.md R33 to R35, R38). -/

namespace Sys2Proof.Machine

/-! ### The list -/

theorem Memory.read_insert (m : Memory) (a a' : Nat) (b : Byte) :
    (m.insert a b).read a' = if a' = a then b else m.read a' := by
  induction m with
  | nil => simp only [Memory.insert, Memory.read, eq_comm]
  | cons p m ih =>
    obtain ⟨k, c⟩ := p
    simp only [Memory.insert]
    split
    · simp only [Memory.read]
      by_cases h : a' = a
      · simp [h]
      · simp [h, Ne.symm h]
    · split
      · rename_i h; subst h
        simp only [Memory.read]
        by_cases h : a' = k
        · simp [h]
        · simp [h, Ne.symm h]
      · rename_i h
        simp only [Memory.read, ih]
        by_cases hk : k = a'
        · subst hk; simp [h]
        · simp [hk]

theorem Memory.read_of_forall_ne {m : Memory} {a : Nat} (h : ∀ p ∈ m, p.1 ≠ a) : m.read a = initialByte a := by
  induction m with
  | nil => rfl
  | cons p m ih =>
    simp only [List.mem_cons, forall_eq_or_imp] at h
    simp [Memory.read, h.1, ih h.2]

theorem Memory.read_erase {m : Memory} (hm : m.Pairwise (fun p q => p.1 < q.1)) (a a' : Nat) :
    (m.erase a).read a' = if a' = a then initialByte a else m.read a' := by
  induction m with
  | nil =>
    simp only [Memory.erase, Memory.read]
    split <;> simp_all
  | cons p m ih =>
    obtain ⟨k, c⟩ := p
    rw [List.pairwise_cons] at hm
    simp only [Memory.erase]
    split
    · rename_i h; subst h
      by_cases h : a' = k
      · subst h
        rw [if_pos rfl]
        exact Memory.read_of_forall_ne fun p hp => by have := hm.1 p hp; simp only at this; omega
      · simp [h, Memory.read, Ne.symm h]
    · rename_i h
      simp only [Memory.read, ih hm.2]
      by_cases hk : k = a'
      · subst hk; simp [h]
      · simp [hk]

/-- Read after write, in a memory whose addresses rise: the byte written at its address, the old byte at every other. -/
theorem Memory.read_write {m : Memory} (hm : m.wf) (a a' : Nat) (b : Byte) :
    (m.write a b).read a' = if a' = a then b else m.read a' := by
  unfold Memory.write
  split
  · rename_i h; rw [Memory.read_erase hm.1, h]
  · exact Memory.read_insert m a a' b

/-! ### The canonical form -/

theorem Memory.nil_wf : Memory.wf [] := ⟨List.Pairwise.nil, by simp⟩

theorem Memory.mem_erase {m : Memory} {a : Nat} {p : Host.Cell} (h : p ∈ m.erase a) : p ∈ m := by
  induction m with
  | nil => exact h
  | cons q m ih =>
    obtain ⟨k, c⟩ := q
    simp only [Memory.erase] at h
    split at h
    · exact List.mem_cons_of_mem _ h
    · rw [List.mem_cons] at h ⊢
      exact h.imp_right ih

theorem Memory.mem_insert {m : Memory} {a : Nat} {b : Byte} {p : Host.Cell} (h : p ∈ m.insert a b) :
    p = (a, b) ∨ p ∈ m := by
  induction m with
  | nil => simpa [Memory.insert] using h
  | cons q m ih =>
    obtain ⟨k, c⟩ := q
    simp only [Memory.insert] at h
    split at h
    · simpa using h
    · split at h
      · rw [List.mem_cons] at h
        exact h.imp_right (List.mem_cons_of_mem _)
      · rw [List.mem_cons] at h
        rcases h with h | h
        · exact .inr (by simp [h])
        · exact (ih h).imp_right (List.mem_cons_of_mem _)

theorem Memory.erase_pairwise {m : Memory} (hm : m.Pairwise (fun p q => p.1 < q.1)) (a : Nat) :
    (m.erase a).Pairwise (fun p q => p.1 < q.1) := by
  induction m with
  | nil => exact hm
  | cons q m ih =>
    obtain ⟨k, c⟩ := q
    rw [List.pairwise_cons] at hm
    simp only [Memory.erase]
    split
    · exact hm.2
    · exact List.pairwise_cons.2 ⟨fun p hp => hm.1 p (Memory.mem_erase hp), ih hm.2⟩

theorem Memory.insert_pairwise {m : Memory} (hm : m.Pairwise (fun p q => p.1 < q.1)) (a : Nat) (b : Byte) :
    (m.insert a b).Pairwise (fun p q => p.1 < q.1) := by
  induction m with
  | nil => simp [Memory.insert]
  | cons q m ih =>
    obtain ⟨k, c⟩ := q
    have hm' := hm
    rw [List.pairwise_cons] at hm
    simp only [Memory.insert]
    split
    · rename_i h
      refine List.pairwise_cons.2 ⟨fun p hp => ?_, hm'⟩
      rcases List.mem_cons.1 hp with rfl | hp
      · exact h
      · have := hm.1 p hp
        simp only at this ⊢
        omega
    · split
      · rename_i h; subst h
        exact List.pairwise_cons.2 ⟨hm.1, hm.2⟩
      · rename_i h h'
        refine List.pairwise_cons.2 ⟨fun p hp => ?_, ih hm.2⟩
        rcases Memory.mem_insert hp with rfl | hp
        · simp only; omega
        · exact hm.1 p hp

/-- A write inside the address space keeps the canonical form. -/
theorem Memory.write_wf {m : Memory} (hm : m.wf) {a : Nat} (ha : a < memSize) (b : Byte) : (m.write a b).wf := by
  unfold Memory.write
  split
  · exact ⟨Memory.erase_pairwise hm.1 a, fun p hp => hm.2 p (Memory.mem_erase hp)⟩
  · rename_i h
    refine ⟨Memory.insert_pairwise hm.1 a b, fun p hp => ?_⟩
    rcases Memory.mem_insert hp with rfl | hp
    · exact ⟨ha, h⟩
    · exact hm.2 p hp

/-! ### The access primitives -/

theorem memRead_ok {a : Nat} {s : State} (h : a < memSize) : memRead a s = .ok (s.mem.read a) := by simp [memRead, h]

theorem memRead_error {a : Nat} {s : State} (h : ¬ a < memSize) : memRead a s = .error (.addressOutOfRange a) := by
  simp [memRead, h]

/-- A read that completes was of an address in memory and gave its byte. -/
theorem memRead_eq_ok {a : Nat} {s : State} {b : Byte} : memRead a s = .ok b ↔ a < memSize ∧ s.mem.read a = b := by
  unfold memRead
  split <;> simp_all

theorem memWrite_ok {a : Nat} {b : Byte} {s : State} (h : a < memSize) :
    memWrite a b s = .ok (s.setMem (s.mem.write a b)) := by simp [memWrite, h]

theorem memWrite_error {a : Nat} {b : Byte} {s : State} (h : ¬ a < memSize) :
    memWrite a b s = .error (.addressOutOfRange a) := by simp [memWrite, h]

/-! ### Several bytes -/

/-- All the addresses lie in memory: the bytes are read in ascending order. -/
theorem loadBytes_ok (n a : Nat) (s : State) (h : n = 0 ∨ a + n ≤ memSize) :
    loadBytes n a s = .ok ((List.range n).map fun k => s.mem.read (a + k)) := by
  induction n generalizing a with
  | zero => rfl
  | succ n ih =>
    rw [loadBytes, memRead_ok (by omega), ih (a + 1) (by omega)]
    simp [List.range_succ_eq_map, Function.comp_def, Nat.add_comm, Nat.add_left_comm]

/-- Some address lies above 0xFFF: the first one faults (R126). -/
theorem loadBytes_error (n a : Nat) (s : State) (hn : n ≠ 0) (h : memSize < a + n) :
    loadBytes n a s = .error (.addressOutOfRange (max a memSize)) := by
  induction n generalizing a with
  | zero => contradiction
  | succ n ih =>
    rw [loadBytes]
    by_cases ha : a < memSize
    · rw [memRead_ok ha, ih (a + 1) (by omega) (by omega)]
      simp only
      congr 2
      omega
    · rw [memRead_error ha]
      simp only
      congr 2
      omega

/-- All the addresses lie in memory: only `mem` changes, it stays canonical, and each byte reads back (R34, R38). -/
theorem storeBytes_ok (bs : List Byte) (a : Nat) (s : State) (hw : s.mem.wf) (h : bs = [] ∨ a + bs.length ≤ memSize) :
    ∃ m : Memory, storeBytes bs a s = .ok (s.setMem m) ∧ m.wf ∧
      ∀ a', m.read a' = if h' : a ≤ a' ∧ a' - a < bs.length then bs[a' - a]'h'.2 else s.mem.read a' := by
  induction bs generalizing a s with
  | nil => exact ⟨s.mem, rfl, hw, by simp⟩
  | cons b bs ih =>
    have hlen : a + (bs.length + 1) ≤ memSize := by simpa using h
    have ha : a < memSize := by omega
    obtain ⟨m, h1, h2, h3⟩ := ih (a + 1) (s.setMem (s.mem.write a b)) (Memory.write_wf hw ha b) (.inr (by omega))
    refine ⟨m, ?_, h2, fun a' => ?_⟩
    · rw [storeBytes, memWrite_ok ha]
      exact h1
    · rw [h3, State.setMem_mem, Memory.read_write hw]
      rcases Nat.lt_trichotomy a' a with h | h | h
      · rw [dif_neg (by omega), if_neg (by omega), dif_neg (by omega)]
      · subst h
        rw [dif_neg (by omega), if_pos rfl, dif_pos (by simp)]
        simp
      · by_cases hb : a' - a < bs.length + 1
        · rw [dif_pos (by omega), dif_pos (by simp; omega)]
          have e : a' - a = (a' - (a + 1)) + 1 := by omega
          simp [e]
        · rw [dif_neg (by omega), if_neg (by omega), dif_neg (by simp; omega)]

/-- Whatever the memory, storing inside it completes and changes only `mem`. -/
theorem storeBytes_ok_of_le (bs : List Byte) (a : Nat) (s : State) (h : bs = [] ∨ a + bs.length ≤ memSize) :
    ∃ m : Memory, storeBytes bs a s = .ok (s.setMem m) := by
  induction bs generalizing a s with
  | nil => exact ⟨s.mem, rfl⟩
  | cons b bs ih =>
    have hlen : a + (bs.length + 1) ≤ memSize := by simpa using h
    rw [storeBytes, memWrite_ok (by omega)]
    exact ih (a + 1) (s.setMem (s.mem.write a b)) (.inr (by omega))

/-- Some address lies above 0xFFF: the first one faults (R126). -/
theorem storeBytes_error (bs : List Byte) (a : Nat) (s : State) (hn : bs ≠ []) (h : memSize < a + bs.length) :
    storeBytes bs a s = .error (.addressOutOfRange (max a memSize)) := by
  induction bs generalizing a s with
  | nil => contradiction
  | cons b bs ih =>
    rw [List.length_cons] at h
    rw [storeBytes]
    by_cases ha : a < memSize
    · rw [memWrite_ok ha]
      have hb : bs ≠ [] := by rintro rfl; simp at h; omega
      simp only
      rw [ih (a + 1) _ hb (by omega)]
      congr 2
      omega
    · rw [memWrite_error ha]
      simp only
      congr 2
      omega

/-- If a store completes, only `mem` changed. -/
theorem storeBytes_inv {bs : List Byte} {a : Nat} {s t : State} (h : storeBytes bs a s = .ok t) :
    ∃ m : Memory, t = s.setMem m := by
  by_cases hb : bs = [] ∨ a + bs.length ≤ memSize
  · obtain ⟨m, hm⟩ := storeBytes_ok_of_le bs a s hb
    rw [hm] at h
    exact ⟨m, (Except.ok.inj h).symm⟩
  · rw [storeBytes_error bs a s (by tauto) (by omega)] at h
    cases h

end Sys2Proof.Machine
end

