-- ==== Sys2Proof/Laws/Regs.lean ====
section
/-! SUPPORT. What the register operations do: one write, a write with a flag, a logic write, a block fill. -/

namespace Sys2Proof.Machine

/-- Reading a register after a write to one (R11: the registers are independent cells). -/
theorem State.getV_setV (s : State) (x r : Reg) (b : Byte) :
    (s.setV x b).getV r = if r = x then b else s.getV r := by
  simp only [State.getV, State.setV, Fin.getElem_fin, Vector.getElem_set]
  simp only [Fin.ext_iff, eq_comm]

@[simp] theorem State.getV_setV_same (s : State) (x : Reg) (b : Byte) : (s.setV x b).getV x = b := by
  simp [State.getV_setV]

theorem State.getV_setV_other (s : State) {x r : Reg} (b : Byte) (h : r ≠ x) : (s.setV x b).getV r = s.getV r := by
  simp [State.getV_setV, h]

/-- Writing a register changes `V` and nothing else. -/
theorem State.setV_eq (s : State) (x : Reg) (b : Byte) : s.setV x b = { s with V := (s.setV x b).V } := rfl

/-- A write with a flag: VF holds the flag, `V[x]` the result unless it is VF, and no other register changes (R70). -/
theorem writeWithFlag_getV (x r : Reg) (b : Byte) (f : Bool) (s : State) :
    (writeWithFlag x b f s).getV r = if r = vf then flagByte f else if r = x then b else s.getV r := by
  simp [writeWithFlag, State.getV_setV]

/-- A write with a flag changes `V` and nothing else. -/
theorem writeWithFlag_eq (x : Reg) (b : Byte) (f : Bool) (s : State) :
    writeWithFlag x b f s = { s with V := (writeWithFlag x b f s).V } := rfl

/-- A logic write: on Original VF ends 0, else only `V[x]` changes (R74). -/
theorem writeLogic_getV (x r : Reg) (b : Byte) (s : State) :
    (writeLogic x b s).getV r =
      if s.variant.logicResetsVF = true ∧ r = vf then 0 else if r = x then b else s.getV r := by
  unfold writeLogic
  by_cases h : s.variant.logicResetsVF = true
  · simp only [h, if_true, true_and, State.getV_setV]
  · simp [h, State.getV_setV]

/-- A logic write changes `V` and nothing else. -/
theorem writeLogic_eq (x : Reg) (b : Byte) (s : State) : writeLogic x b s = { s with V := (writeLogic x b s).V } := by
  unfold writeLogic
  split <;> rfl

/-- A block fill from register `k`: register `r` receives byte `r - k` when there is one (R90). -/
theorem fillRegs_getElem (bs : List Byte) (k : Nat) (v : Vector Byte 16) (r : Nat) (hr : r < 16) :
    (fillRegs bs k v)[r] = if k ≤ r then bs.getD (r - k) v[r] else v[r] := by
  induction bs generalizing k v with
  | nil => simp [fillRegs]
  | cons b bs ih =>
    rw [fillRegs, ih]
    by_cases hk : k < 16
    · simp only [hk, dite_true, Vector.getElem_set]
      rcases Nat.lt_trichotomy k r with h | h | h
      · have e : r - k = (r - (k + 1)) + 1 := by omega
        simp [e, Nat.succ_le_of_lt h, Nat.le_of_lt h, Nat.ne_of_lt h]
      · subst h
        simp
      · simp [Nat.not_le_of_lt h, Nat.not_le_of_lt (Nat.lt_succ_of_lt h), Nat.ne_of_gt h]
    · simp [hk, show ¬ k ≤ r by omega, show ¬ k + 1 ≤ r by omega]

/-- `V[0]`..`V[x]` as a list: `x + 1` bytes, the k-th being `V[k]` (R89). -/
theorem regsUpTo_length (x : Reg) (s : State) : (regsUpTo x s).length = x.val + 1 := by
  have := x.isLt
  simp [regsUpTo]

theorem regsUpTo_getElem (x : Reg) (s : State) (k : Nat) (h : k < (regsUpTo x s).length) :
    (regsUpTo x s)[k] = s.V[k]'(by have := x.isLt; rw [regsUpTo_length] at h; omega) := by
  simp [regsUpTo]

/-- A number has three decimal digits (R88). -/
@[simp] theorem decimalDigits_length (b : Byte) : (decimalDigits b).length = 3 := rfl

end Sys2Proof.Machine
end

