-- ==== Sys2Proof/Laws/Display.lean ====
section
/-! SUPPORT. What the drawing operations do: one sprite pixel, the completion and the fault of a draw, and its frame. -/

namespace Sys2Proof.Machine

/-- A sprite pixel off the grid is dropped (R94). -/
theorem plot_off {row col : Nat} (d : Canvas) (h : ¬ (row < 32 ∧ col < 64)) : plot row col d = d := by
  simp [plot, h]

/-- A sprite pixel on the grid inverts that pixel and no other (R94). -/
theorem plot_pixel {row col : Nat} (d : Canvas) (i : Fin 32) (j : Fin 64) :
    (plot row col d).fb[i][j] = if i.val = row ∧ j.val = col then !d.fb[i][j] else d.fb[i][j] := by
  unfold plot
  split
  · rename_i h
    simp only [Fin.getElem_fin, Vector.getElem_set]
    by_cases hi : row = i.val
    · subst hi
      by_cases hj : col = j.val
      · subst hj; simp
      · simp [hj, Ne.symm hj]
    · simp [hi, Ne.symm hi]
  · rename_i h
    have hi := i.isLt
    have hj := j.isLt
    rw [if_neg (by omega)]

/-- A sprite pixel collides exactly when it is on the grid and turns a pixel off (R94). -/
theorem plot_hit {row col : Nat} (d : Canvas) :
    (plot row col d).hit = true ↔
      d.hit = true ∨ ∃ (i : Fin 32) (j : Fin 64), i.val = row ∧ j.val = col ∧ d.fb[i][j] = true := by
  unfold plot
  split
  · rename_i h
    simp only [Bool.or_eq_true]
    refine or_congr_right ⟨fun hp => ⟨⟨row, h.1⟩, ⟨col, h.2⟩, rfl, rfl, hp⟩, ?_⟩
    rintro ⟨i, j, rfl, rfl, hp⟩
    exact hp
  · rename_i h
    refine ⟨.inl, fun hp => hp.elim id ?_⟩
    rintro ⟨i, j, rfl, rfl, _⟩
    exact absurd ⟨i.isLt, j.isLt⟩ h

/-- A draw whose sprite lies in memory completes (R94). -/
theorem drawWith_ok (yMod : Nat) (x y : Reg) (n : Nat) (s : State) (h : n = 0 ∨ s.I.toNat + n ≤ memSize) :
    drawWith yMod x y n s =
      let d := drawRows ((List.range n).map fun k => s.mem.read (s.I.toNat + k))
        ((s.getV y).toNat % yMod) ((s.getV x).toNat % drawXMod) ⟨s.fb, false⟩
      .ok (((s.setFb d.fb).setV vf (flagByte d.hit)).setDirty true) := by
  simp only [drawWith, baseAddress, loadBytes_ok n s.I.toNat s h]

/-- A draw whose sprite leaves memory faults with the first offending address, clipped rows included (R94, R126). -/
theorem drawWith_error (yMod : Nat) (x y : Reg) (n : Nat) (s : State) (hn : n ≠ 0) (h : memSize < s.I.toNat + n) :
    drawWith yMod x y n s = .error (.addressOutOfRange (max s.I.toNat memSize)) := by
  simp only [drawWith, baseAddress, loadBytes_error n s.I.toNat s hn h]

/-- If a draw completes, it changed the framebuffer, VF and the dirty flag, which it set, and nothing else. -/
theorem drawWith_inv {yMod : Nat} {x y : Reg} {n : Nat} {s t : State} (h : drawWith yMod x y n s = .ok t) :
    ∃ (f : Framebuffer) (b : Bool), t = ((s.setFb f).setV vf (flagByte b)).setDirty true := by
  unfold drawWith at h
  split at h
  · cases h
  · exact ⟨_, _, (Except.ok.inj h).symm⟩

end Sys2Proof.Machine
end

