-- ==== Sys2Proof/Laws/Keys.lean ====
section
/-! SUPPORT. What the key operations do: the key a register names, the released keys, and the choice among them. -/

namespace Sys2Proof.Machine

/-- A key number up to 15 names that key (R104). -/
theorem keyOperand_ok {b : Byte} (h : b.toNat < 16) : keyOperand b = .ok ⟨b.toNat, h⟩ := by simp [keyOperand, h]

/-- A key number above 15 faults (R104). -/
theorem keyOperand_error {b : Byte} (h : ¬ b.toNat < 16) : keyOperand b = .error (.keyIndexOutOfRange b) := by
  simp [keyOperand, h]

/-- The released keys are exactly the falling edges (R103). -/
theorem mem_releasedKeys {s : State} {k : Key} : k ∈ releasedKeys s ↔ s.keyPrev[k] = true ∧ s.keyCur[k] = false := by
  simp [releasedKeys, fallingEdge]

/-- The key chosen is one of those offered, whatever the open choice (R103). -/
theorem keywaitPick_mem (k : Key) (ks : List Key) : keywaitPick k ks ∈ k :: ks := by
  cases ks with
  | nil => simp [keywaitPick]
  | cons j js =>
    have h : Config.keywaitPick (k :: j :: js) % (k :: j :: js).length < (k :: j :: js).length :=
      Nat.mod_lt _ (by simp)
    simp only [keywaitPick, List.getD_eq_getElem?_getD, List.getElem?_eq_getElem h, Option.getD_some]
    exact List.getElem_mem h

/-- With one released key the result is that key (R103). -/
@[simp] theorem keywaitPick_single (k : Key) : keywaitPick k [] = k := rfl

end Sys2Proof.Machine
end

