-- ==== Sys2Proof/Laws/PerInstr.lean ====
section
/-! SUPPORT. Per-instruction family `EncodingRow`: the word the encoder gives an instruction matches the instruction's own row of
the opcode table (spec 30_encoding.md R51). -/

namespace Sys2Proof.Laws.EncodingRow

/-- The encoded word matches the row's mask and match columns. -/
def Statement (i : Instr) : Prop := i.row.accepts (encode i) = true

/-- A word of format A under a mask of the leading nibble. -/
theorem formatA_accepts (op : BitVec 4) (nnn : Imm12) : formatA op nnn &&& 0xF000 = formatA op 0 := by
  apply BitVec.eq_of_getLsbD_eq
  intro i hi
  simp only [formatA, BitVec.getLsbD_and, BitVec.getLsbD_append]
  interval_cases i <;> simp

/-- A word of format I under a mask of the leading nibble. -/
theorem formatI_accepts (op : BitVec 4) (x : Reg) (nn : Byte) : formatI op x nn &&& 0xF000 = formatI op 0 0 := by
  apply BitVec.eq_of_getLsbD_eq
  intro i hi
  simp only [formatI, BitVec.getLsbD_and, BitVec.getLsbD_append]
  interval_cases i <;> simp

/-- A word of format S under a mask of the leading nibble and the low byte. -/
theorem formatS_accepts (op : BitVec 4) (x : Reg) (nn : Byte) : formatI op x nn &&& 0xF0FF = formatI op 0 nn := by
  apply BitVec.eq_of_getLsbD_eq
  intro i hi
  simp only [formatI, BitVec.getLsbD_and, BitVec.getLsbD_append]
  interval_cases i <;> simp

/-- A word of format R under a mask of the leading and the trailing nibble. -/
theorem formatR_accepts (op : BitVec 4) (x y : Reg) (n : BitVec 4) :
    formatR op x y n &&& 0xF00F = formatR op 0 0 n := by
  apply BitVec.eq_of_getLsbD_eq
  intro i hi
  simp only [formatR, BitVec.getLsbD_and, BitVec.getLsbD_append]
  interval_cases i <;> simp

/-- A word of format D under a mask of the leading nibble. -/
theorem formatD_accepts (op : BitVec 4) (x y : Reg) (n : BitVec 4) :
    formatR op x y n &&& 0xF000 = formatR op 0 0 0 := by
  apply BitVec.eq_of_getLsbD_eq
  intro i hi
  simp only [formatR, BitVec.getLsbD_and, BitVec.getLsbD_append]
  interval_cases i <;> simp

theorem cls : Statement .cls := by unfold Statement; decide
theorem ret : Statement .ret := by unfold Statement; decide
theorem jp (nnn : Imm12) : Statement (.jp nnn) := by
  simp only [Statement, OpcodeRow.accepts, encode, Instr.row, formatA_accepts]
  decide
theorem call (nnn : Imm12) : Statement (.call nnn) := by
  simp only [Statement, OpcodeRow.accepts, encode, Instr.row, formatA_accepts]
  decide
theorem seVxNn (x : Reg) (nn : Byte) : Statement (.seVxNn x nn) := by
  simp only [Statement, OpcodeRow.accepts, encode, Instr.row, formatI_accepts]
  decide
theorem sneVxNn (x : Reg) (nn : Byte) : Statement (.sneVxNn x nn) := by
  simp only [Statement, OpcodeRow.accepts, encode, Instr.row, formatI_accepts]
  decide
theorem seVxVy (x y : Reg) : Statement (.seVxVy x y) := by
  simp only [Statement, OpcodeRow.accepts, encode, Instr.row, formatR_accepts]
  decide
theorem ldVxNn (x : Reg) (nn : Byte) : Statement (.ldVxNn x nn) := by
  simp only [Statement, OpcodeRow.accepts, encode, Instr.row, formatI_accepts]
  decide
theorem addVxNn (x : Reg) (nn : Byte) : Statement (.addVxNn x nn) := by
  simp only [Statement, OpcodeRow.accepts, encode, Instr.row, formatI_accepts]
  decide
theorem ldVxVy (x y : Reg) : Statement (.ldVxVy x y) := by
  simp only [Statement, OpcodeRow.accepts, encode, Instr.row, formatR_accepts]
  decide
theorem orVxVy (x y : Reg) : Statement (.orVxVy x y) := by
  simp only [Statement, OpcodeRow.accepts, encode, Instr.row, formatR_accepts]
  decide
theorem andVxVy (x y : Reg) : Statement (.andVxVy x y) := by
  simp only [Statement, OpcodeRow.accepts, encode, Instr.row, formatR_accepts]
  decide
theorem xorVxVy (x y : Reg) : Statement (.xorVxVy x y) := by
  simp only [Statement, OpcodeRow.accepts, encode, Instr.row, formatR_accepts]
  decide
theorem addVxVy (x y : Reg) : Statement (.addVxVy x y) := by
  simp only [Statement, OpcodeRow.accepts, encode, Instr.row, formatR_accepts]
  decide
theorem subVxVy (x y : Reg) : Statement (.subVxVy x y) := by
  simp only [Statement, OpcodeRow.accepts, encode, Instr.row, formatR_accepts]
  decide
theorem shrVxVy (x y : Reg) : Statement (.shrVxVy x y) := by
  simp only [Statement, OpcodeRow.accepts, encode, Instr.row, formatR_accepts]
  decide
theorem subnVxVy (x y : Reg) : Statement (.subnVxVy x y) := by
  simp only [Statement, OpcodeRow.accepts, encode, Instr.row, formatR_accepts]
  decide
theorem shlVxVy (x y : Reg) : Statement (.shlVxVy x y) := by
  simp only [Statement, OpcodeRow.accepts, encode, Instr.row, formatR_accepts]
  decide
theorem sneVxVy (x y : Reg) : Statement (.sneVxVy x y) := by
  simp only [Statement, OpcodeRow.accepts, encode, Instr.row, formatR_accepts]
  decide
theorem ldINnn (nnn : Imm12) : Statement (.ldINnn nnn) := by
  simp only [Statement, OpcodeRow.accepts, encode, Instr.row, formatA_accepts]
  decide
theorem jpV0Nnn (nnn : Imm12) : Statement (.jpV0Nnn nnn) := by
  simp only [Statement, OpcodeRow.accepts, encode, Instr.row, formatA_accepts]
  decide
theorem rndVxNn (x : Reg) (nn : Byte) : Statement (.rndVxNn x nn) := by
  simp only [Statement, OpcodeRow.accepts, encode, Instr.row, formatI_accepts]
  decide
theorem drw (x y : Reg) (n : Nat) : Statement (.drw x y n) := by
  simp only [Statement, OpcodeRow.accepts, encode, Instr.row, formatD_accepts]
  decide
theorem skp (x : Reg) : Statement (.skp x) := by
  simp only [Statement, OpcodeRow.accepts, encode, Instr.row, formatS_accepts]
  decide
theorem sknp (x : Reg) : Statement (.sknp x) := by
  simp only [Statement, OpcodeRow.accepts, encode, Instr.row, formatS_accepts]
  decide
theorem ldVxDt (x : Reg) : Statement (.ldVxDt x) := by
  simp only [Statement, OpcodeRow.accepts, encode, Instr.row, formatS_accepts]
  decide
theorem ldVxK (x : Reg) : Statement (.ldVxK x) := by
  simp only [Statement, OpcodeRow.accepts, encode, Instr.row, formatS_accepts]
  decide
theorem ldDtVx (x : Reg) : Statement (.ldDtVx x) := by
  simp only [Statement, OpcodeRow.accepts, encode, Instr.row, formatS_accepts]
  decide
theorem ldStVx (x : Reg) : Statement (.ldStVx x) := by
  simp only [Statement, OpcodeRow.accepts, encode, Instr.row, formatS_accepts]
  decide
theorem addIVx (x : Reg) : Statement (.addIVx x) := by
  simp only [Statement, OpcodeRow.accepts, encode, Instr.row, formatS_accepts]
  decide
theorem ldFVx (x : Reg) : Statement (.ldFVx x) := by
  simp only [Statement, OpcodeRow.accepts, encode, Instr.row, formatS_accepts]
  decide
theorem ldBVx (x : Reg) : Statement (.ldBVx x) := by
  simp only [Statement, OpcodeRow.accepts, encode, Instr.row, formatS_accepts]
  decide
theorem ldMemVx (x : Reg) : Statement (.ldMemVx x) := by
  simp only [Statement, OpcodeRow.accepts, encode, Instr.row, formatS_accepts]
  decide
theorem ldVxMem (x : Reg) : Statement (.ldVxMem x) := by
  simp only [Statement, OpcodeRow.accepts, encode, Instr.row, formatS_accepts]
  decide

end Sys2Proof.Laws.EncodingRow
end

