-- ==== Sys2Proof/Laws/Step.lean ====
section
/-! SUPPORT. What a Step can do (spec 30_encoding.md R50): the fetch, and one inversion lemma. -/

namespace Sys2Proof.Machine

/-- The fetch of a word inside memory: its two bytes (R46). -/
theorem fetch_ok {s : State} (h : s.pc.toNat + 1 < memSize) :
    fetch s = .ok (s.mem.read s.pc.toNat, s.mem.read (s.pc.toNat + 1)) := by
  simp [fetch, memRead_ok (show s.pc.toNat < memSize by omega), memRead_ok h]

/-- The fetch at `pc = 0xFFE` and below completes; above, it faults with the first address outside memory (R46, R120). -/
theorem fetch_error {s : State} (h : ¬ s.pc.toNat + 1 < memSize) :
    fetch s = .error (.addressOutOfRange (max s.pc.toNat memSize)) := by
  unfold fetch
  by_cases h0 : s.pc.toNat < memSize
  · rw [memRead_ok h0, memRead_error h]
    simp only
    congr 2
    omega
  · rw [memRead_error h0]
    simp only
    congr 2
    omega

/-- A step of a running core whose word can be fetched is the run of that word. -/
theorem step_running {s : State} (hs : s.status = .running) (h : s.pc.toNat + 1 < memSize) :
    step s = runWord (s.mem.read s.pc.toNat) (s.mem.read (s.pc.toNat + 1)) s.advanced := by
  simp [step, hs, stepRunning, fetch_ok h]

/-- The bytes at `pc` can be fetched exactly when `pc + 1` is in memory, and are then the two bytes there (R46). -/
theorem fetchesBytes_iff {s : State} {hi lo : Byte} :
    FetchesBytes s hi lo ↔
      s.pc.toNat + 1 < memSize ∧ s.mem.read s.pc.toNat = hi ∧ s.mem.read (s.pc.toNat + 1) = lo := by
  simp only [FetchesBytes, memRead_eq_ok]
  constructor
  · exact fun ⟨⟨_, h⟩, h', h''⟩ => ⟨h', h, h''⟩
  · exact fun ⟨h, h', h''⟩ => ⟨⟨by omega, h'⟩, h, h''⟩

/-- A step of a running core that fetches a word is the run of its two bytes. -/
theorem step_fetchesBytes {s : State} {hi lo : Byte} (hs : s.status = .running) (h : FetchesBytes s hi lo) :
    step s = runWord hi lo s.advanced := by
  obtain ⟨hp, rfl, rfl⟩ := fetchesBytes_iff.1 h
  exact step_running hs hp

/-- A step of a running core that fetches the word of an instruction is that instruction, from the advanced state. -/
theorem step_fetchesWord {s : State} {w : Word} {i : Instr} (hs : s.status = .running) (h : FetchesWord s w)
    (hd : decodeWord w = .ok i) : step s = exec i s.advanced := by
  obtain ⟨hi, lo, hb, rfl⟩ := h
  rw [step_fetchesBytes hs hb, runWord, assembleWord, hd]

/-- All that a completing step can be: the core was running, the word at `pc` was fetched, and either it was unrecognised and
nothing but `dirty` and `pc` changed, or it was an instruction and its meaning completed. -/
theorem step_next_inv {s t : State} (h : step s = .next t) :
    s.status = .running ∧ s.pc.toNat + 1 < memSize ∧
      ((∃ e, decodeWord (assembleWord (s.mem.read s.pc.toNat) (s.mem.read (s.pc.toNat + 1))) = .error e ∧ t = s.advanced) ∨
       (∃ i, decodeWord (assembleWord (s.mem.read s.pc.toNat) (s.mem.read (s.pc.toNat + 1))) = .ok i ∧
          exec i s.advanced = .next t)) := by
  cases hs : s.status with
  | faulted c => simp [step, hs, raise] at h
  | running =>
    by_cases hp : s.pc.toNat + 1 < memSize
    · refine ⟨rfl, hp, ?_⟩
      rw [step_running hs hp, runWord] at h
      split at h
      · exact .inr ⟨_, ‹_›, h⟩
      · exact .inl ⟨_, ‹_›, (Host.Outcome.next.inj h).symm⟩
    · simp [step, hs, stepRunning, fetch_error hp, raise] at h

end Sys2Proof.Machine
end

