-- ==== Sys2Proof/Tests/Slice0.lean ====
section
/-! SUPPORT. Tests: well-formedness, decoding of words written out from the spec's patterns, one step on the spec's own vectors
(95_test_vectors.md, named in each comment), and a witness for the hypotheses of each statement. -/

namespace Sys2Proof.Tests

open Sys2Proof.Machine

/-! ### Well-formedness -/

/-- The one check: a sprite of 16 rows has no encoding (R47: `n` is four bits). -/
theorem test_wf_refuses_sixteen_rows : (Instr.drw 0 0 16).wf = false := by decide

theorem test_wf_accepts_fifteen_rows : (Instr.drw 0xF 0xF 15).wf = true := by decide

/-! ### Decoding: the fixed digits are those of the pattern of R51, the operand digits differ from each other -/

theorem test_decode_cls : decodeWord 0b0000000011100000 = .ok .cls := by decide
theorem test_decode_ret : decodeWord 0b0000000011101110 = .ok .ret := by decide
theorem test_decode_jp : decodeWord 0b0001101010111100 = .ok (.jp 0xABC) := by decide
theorem test_decode_call : decodeWord 0b0010101010111100 = .ok (.call 0xABC) := by decide
theorem test_decode_seVxNn : decodeWord 0b0011001101000010 = .ok (.seVxNn 3 0x42) := by decide
theorem test_decode_sneVxNn : decodeWord 0b0100001101000011 = .ok (.sneVxNn 3 0x43) := by decide
theorem test_decode_seVxVy : decodeWord 0b0101000100100000 = .ok (.seVxVy 1 2) := by decide
theorem test_decode_ldVxNn : decodeWord 0b0110101000101100 = .ok (.ldVxNn 0xA 0x2C) := by decide
theorem test_decode_addVxNn : decodeWord 0b0111000111111110 = .ok (.addVxNn 1 0xFE) := by decide
theorem test_decode_ldVxVy : decodeWord 0b1000000100100000 = .ok (.ldVxVy 1 2) := by decide
theorem test_decode_orVxVy : decodeWord 0b1000111101110001 = .ok (.orVxVy 0xF 7) := by decide
theorem test_decode_andVxVy : decodeWord 0b1000000100100010 = .ok (.andVxVy 1 2) := by decide
theorem test_decode_xorVxVy : decodeWord 0b1000001101000011 = .ok (.xorVxVy 3 4) := by decide
theorem test_decode_addVxVy : decodeWord 0b1000000000010100 = .ok (.addVxVy 0 1) := by decide
theorem test_decode_subVxVy : decodeWord 0b1000010000110101 = .ok (.subVxVy 4 3) := by decide
theorem test_decode_shrVxVy : decodeWord 0b1000000100100110 = .ok (.shrVxVy 1 2) := by decide
theorem test_decode_subnVxVy : decodeWord 0b1000000000010111 = .ok (.subnVxVy 0 1) := by decide
theorem test_decode_shlVxVy : decodeWord 0b1000001011011110 = .ok (.shlVxVy 2 0xD) := by decide
theorem test_decode_sneVxVy : decodeWord 0b1001000100100000 = .ok (.sneVxVy 1 2) := by decide
theorem test_decode_ldINnn : decodeWord 0b1010111111010001 = .ok (.ldINnn 0xFD1) := by decide
theorem test_decode_jpV0Nnn : decodeWord 0b1011001000010000 = .ok (.jpV0Nnn 0x210) := by decide
theorem test_decode_rndVxNn : decodeWord 0b1100001100001111 = .ok (.rndVxNn 3 0x0F) := by decide
theorem test_decode_drw : decodeWord 0b1101000000011010 = .ok (.drw 0 1 10) := by decide
theorem test_decode_skp : decodeWord 0b1110010010011110 = .ok (.skp 4) := by decide
theorem test_decode_sknp : decodeWord 0b1110010010100001 = .ok (.sknp 4) := by decide
theorem test_decode_ldVxDt : decodeWord 0b1111001000000111 = .ok (.ldVxDt 2) := by decide
theorem test_decode_ldVxK : decodeWord 0b1111000100001010 = .ok (.ldVxK 1) := by decide
theorem test_decode_ldDtVx : decodeWord 0b1111000100010101 = .ok (.ldDtVx 1) := by decide
theorem test_decode_ldStVx : decodeWord 0b1111001100011000 = .ok (.ldStVx 3) := by decide
theorem test_decode_addIVx : decodeWord 0b1111001000011110 = .ok (.addIVx 2) := by decide
theorem test_decode_ldFVx : decodeWord 0b1111101000101001 = .ok (.ldFVx 0xA) := by decide
theorem test_decode_ldBVx : decodeWord 0b1111101100110011 = .ok (.ldBVx 0xB) := by decide
theorem test_decode_ldMemVx : decodeWord 0b1111111101010101 = .ok (.ldMemVx 0xF) := by decide
theorem test_decode_ldVxMem : decodeWord 0b1111001001100101 = .ok (.ldVxMem 2) := by decide

/-- One word of each class of R54 (V-E2 to V-E7). -/
theorem test_decode_rejects :
    decodeWord 0x00E1 = .error (.unrecognised 0x00E1) ∧
    decodeWord 0x5121 = .error (.unrecognised 0x5121) ∧
    decodeWord 0x8128 = .error (.unrecognised 0x8128) ∧
    decodeWord 0x9121 = .error (.unrecognised 0x9121) ∧
    decodeWord 0xE19F = .error (.unrecognised 0xE19F) ∧
    decodeWord 0xF175 = .error (.unrecognised 0xF175) := by decide

/-- The first byte is the high one, and the bytes after the second are handed back (V-E9, R45). -/
theorem test_decode_bytes : decode [0x12, 0x34, 0x56] = .ok (.jp 0x234, [0x56]) := by decide

theorem test_decode_one_byte : decode [0x12] = .error .truncated := by decide

/-! ### Small states -/

/-- Some registers written. -/
def regs (l : List (Reg × Byte)) (s : State) : State := l.foldl (fun s p => s.setV p.1 p.2) s

/-- Some bytes from an address up. -/
def bytes (a : Nat) (bs : List Byte) (s : State) : State := { s with mem := s.mem.writeAll a bs }

/-- The two key latches with the given keys held. -/
def keys (prev cur : List Key) (s : State) : State :=
  { s with keyPrev := Vector.ofFn fun k => prev.contains k, keyCur := Vector.ofFn fun k => cur.contains k }

/-- What one step on a placed word leaves, if it completes. -/
def after (w : Nat) (s : State) : Option State :=
  match step (s.withFetchWord 16 w) with
  | .next t => some t
  | .fault _ => none
  | .refused _ => none

/-- The fault of one step on a placed word. -/
def faultAfter (w : Nat) (s : State) : Option Fault :=
  match step (s.withFetchWord 16 w) with
  | .next _ => none
  | .fault c => some c
  | .refused _ => none

/-- The columns of one row that are on. -/
def lit (row : Fin 32) (s : State) : List (Fin 64) := (List.finRange 64).filter (s.pixel row)

/-! ### The step -/

/-- V-E1, V-F6. -/
theorem test_step_unrecognised :
    (after 0xFFFF .reset).map (fun t => (t.pc, t.status)) = some (0x0202, .running) ∧
    State.reset.stepDiag = some (.unrecognisedOpcode 0x0000 0x0200) := by decide

/-- V-C17, V-F3. -/
theorem test_step_fetch_faults :
    step { State.reset with pc := 0x0FFF } = .fault (.addressOutOfRange 0x1000) ∧
    step { State.reset with pc := 0x10FE } = .fault (.addressOutOfRange 0x10FE) := ⟨rfl, rfl⟩

/-! ### Control transfer -/

/-- V-C5. -/
theorem test_ret_empty : faultAfter 0x00EE .reset = some .stackUnderflow := by decide

/-- V-C4: 0x0400 was pushed last. -/
theorem test_ret :
    (after 0x00EE { State.reset with stack := [0x0400, 0x0300] }).map (fun t => (t.pc, t.stack)) =
      some (0x0400, [0x0300]) := by decide

/-- V-C1. -/
theorem test_jp : (after 0x1ABC .reset).map (fun t => (t.pc, t.stack)) = some (0x0ABC, []) := by decide

/-- V-C3. -/
theorem test_call : (after 0x2ABC .reset).map (fun t => (t.pc, t.stack)) = some (0x0ABC, [0x0202]) := by decide

/-- V-F5. -/
theorem test_call_bounded :
    (match callWith (some 2) 0x300 { State.reset with stack := [0x0202, 0x0202] } with
      | .ok _ => none | .error c => some c) = some Fault.stackOverflow ∧
    (after 0x2300 { State.reset with stack := [0x0202, 0x0202] }).map (fun t => t.stack.length) = some 3 := by decide

/-- V-C6, V-C7. -/
theorem test_seVxNn :
    (after 0x3342 (regs [(3, 0x42)] .reset)).map State.pc = some 0x0204 ∧
    (after 0x3343 (regs [(3, 0x42)] .reset)).map State.pc = some 0x0202 := by decide

/-- V-C8, V-C9. -/
theorem test_sneVxNn :
    (after 0x4342 (regs [(3, 0x42)] .reset)).map State.pc = some 0x0202 ∧
    (after 0x4343 (regs [(3, 0x42)] .reset)).map State.pc = some 0x0204 := by decide

/-- V-C10, V-C11. -/
theorem test_seVxVy :
    (after 0x5120 (regs [(1, 0x80), (2, 0x80)] .reset)).map State.pc = some 0x0204 ∧
    (after 0x5120 (regs [(1, 0x80), (2, 0x7F)] .reset)).map State.pc = some 0x0202 := by decide

/-- V-C13, V-C14. -/
theorem test_sneVxVy :
    (after 0x9120 (regs [(1, 0x80), (2, 0x7F)] .reset)).map State.pc = some 0x0204 ∧
    (after 0x9330 .reset).map State.pc = some 0x0202 := by decide

/-- V-C15, all three variants. -/
theorem test_jpV0Nnn :
    [Variant.original, .superChip, .extended].map (fun v =>
      (after 0xB300 (regs [(0, 0x04), (3, 0x10)] (.construct v))).map State.pc) =
      [some 0x0304, some 0x0310, some 0x0304] := by decide

/-- V-C16: no mask. -/
theorem test_jpV0Nnn_unmasked :
    (after 0xBFFF (regs [(0, 0xFF), (0xF, 0xFF)] .reset)).map State.pc = some 0x10FE := by decide

/-! ### Registers and arithmetic -/

/-- V-A2: VF as a plain destination. -/
theorem test_ldVxNn : (after 0x6F00 (regs [(0xF, 1)] .reset)).map (·.getV 0xF) = some 0x00 := by decide

/-- T3, V-A4. -/
theorem test_addVxNn :
    (after 0x7001 (regs [(0, 0xFF), (0xF, 0x5A)] .reset)).map (fun t => (t.getV 0, t.getV 0xF)) = some (0x00, 0x5A) ∧
    (after 0x7F02 (regs [(0xF, 0xFF)] .reset)).map (·.getV 0xF) = some 0x01 := by decide

/-- V-A5. -/
theorem test_ldVxVy : (after 0x8120 (regs [(2, 0x9C)] .reset)).map (·.getV 1) = some 0x9C := by decide

/-- V-A6. -/
theorem test_orVxVy :
    [Variant.original, .superChip, .extended].map (fun v =>
      (after 0x8011 (regs [(0, 0x0F), (1, 0xF0), (0xF, 1)] (.construct v))).map (fun t => (t.getV 0, t.getV 0xF))) =
      [some (0xFF, 0), some (0xFF, 1), some (0xFF, 1)] := by decide

/-- V-A9: VF as the destination. -/
theorem test_orVxVy_vf :
    [Variant.original, .superChip, .extended].map (fun v =>
      (after 0x8F11 (regs [(0xF, 1), (1, 2)] (.construct v))).map (·.getV 0xF)) =
      [some 0x00, some 0x03, some 0x03] := by decide

/-- V-A7. -/
theorem test_andVxVy :
    [Variant.original, .superChip, .extended].map (fun v =>
      (after 0x8012 (regs [(0, 0x3C), (1, 0x0F), (0xF, 1)] (.construct v))).map (fun t => (t.getV 0, t.getV 0xF))) =
      [some (0x0C, 0), some (0x0C, 1), some (0x0C, 1)] := by decide

/-- V-A8. -/
theorem test_xorVxVy :
    [Variant.original, .superChip, .extended].map (fun v =>
      (after 0x8013 (regs [(0, 0xFF), (1, 0x0F), (0xF, 1)] (.construct v))).map (fun t => (t.getV 0, t.getV 0xF))) =
      [some (0xF0, 0), some (0xF0, 1), some (0xF0, 1)] := by decide

/-- V-A11, V-A12. -/
theorem test_addVxVy :
    (after 0x8014 (regs [(0, 0xC8), (1, 0x64)] .reset)).map (fun t => (t.getV 0, t.getV 0xF)) = some (0x2C, 1) ∧
    (after 0x8014 (regs [(0, 1), (1, 2), (0xF, 1)] .reset)).map (fun t => (t.getV 0, t.getV 0xF)) = some (3, 0) := by decide

/-- V-A14, V-A16: the flag is written last, the old VF is the operand. -/
theorem test_addVxVy_vf :
    (after 0x8F14 (regs [(0xF, 0x10), (1, 2)] .reset)).map (·.getV 0xF) = some 0 ∧
    (after 0x80F4 (regs [(0, 5), (0xF, 7)] .reset)).map (fun t => (t.getV 0, t.getV 0xF)) = some (0x0C, 0) := by decide

/-- V-A18, V-A20. -/
theorem test_subVxVy :
    (after 0x8015 (regs [(0, 0x33), (1, 0x33)] .reset)).map (fun t => (t.getV 0, t.getV 0xF)) = some (0, 1) ∧
    (after 0x80F5 (regs [(0, 5), (0xF, 7)] .reset)).map (fun t => (t.getV 0, t.getV 0xF)) = some (0xFE, 0) := by decide

/-- T9. -/
theorem test_shrVxVy :
    [Variant.original, .superChip, .extended].map (fun v =>
      (after 0x8016 (regs [(0, 0x03), (1, 0x10)] (.construct v))).map (fun t => (t.getV 0, t.getV 1, t.getV 0xF))) =
      [some (0x08, 0x10, 0), some (0x01, 0x10, 1), some (0x08, 0x10, 0)] := by decide

/-- V-A25: VF as the destination. -/
theorem test_shrVxVy_vf :
    [Variant.original, .superChip, .extended].map (fun v =>
      (after 0x8F16 (regs [(0xF, 4), (1, 3)] (.construct v))).map (·.getV 0xF)) =
      [some 1, some 0, some 1] := by decide

/-- V-A21, V-A22. -/
theorem test_subnVxVy :
    (after 0x8017 (regs [(0, 3), (1, 0x0A)] .reset)).map (fun t => (t.getV 0, t.getV 0xF)) = some (7, 1) ∧
    (after 0x8017 (regs [(0, 0x0A), (1, 3)] .reset)).map (fun t => (t.getV 0, t.getV 0xF)) = some (0xF9, 0) := by decide

/-- V-A26. -/
theorem test_shlVxVy :
    [Variant.original, .superChip, .extended].map (fun v =>
      (after 0x801E (regs [(0, 0x81), (1, 0x40)] (.construct v))).map (fun t => (t.getV 0, t.getV 0xF))) =
      [some (0x80, 0), some (0x02, 1), some (0x80, 0)] := by decide

/-- V-A28. -/
theorem test_shlVxVy_same :
    (after 0x822E (regs [(2, 0xFF)] .reset)).map (fun t => (t.getV 2, t.getV 0xF)) = some (0xFE, 1) := by decide

/-- V-A29. -/
theorem test_rndVxNn : (rndWith 0xB7 3 0x0F .reset).getV 3 = 0x07 := by decide

/-! ### Index register and memory -/

/-- V-M1. -/
theorem test_ldINnn : (after 0xAFFF .reset).map State.I = some 0x0FFF := by decide

/-- V-M3, V-M4. -/
theorem test_addIVx :
    (after 0xF01E (regs [(0, 1)] { State.reset with I := 0x0FFF })).map (fun t => (t.I, t.getV 0xF)) = some (0x1000, 0) ∧
    (after 0xF01E (regs [(0, 2)] { State.reset with I := 0xFFFF })).map State.I = some 0x0001 := by decide

/-- V-M5: the low nibble only; `FONT_BASE` stays symbolic. -/
theorem test_ldFVx : glyphAddress 0x1A = BitVec.ofNat 16 (fontBase + 50) := rfl

/-- V-M6. -/
theorem test_ldBVx :
    (after 0xF033 (regs [(0, 0xFE)] { State.reset with I := 0x300 })).map
      (fun t => ([0x300, 0x301, 0x302].map t.mem.read, t.I)) = some ([2, 5, 4], 0x300) := by decide

/-- V-M8. -/
theorem test_ldBVx_fault :
    faultAfter 0xF033 { State.reset with I := 0x0FFE } = some (.addressOutOfRange 0x1000) := by decide

/-- V-M9. -/
theorem test_ldMemVx :
    [Variant.original, .superChip, .extended].map (fun v =>
      (after 0xF155 (regs [(0, 0x11), (1, 0x22), (2, 0x33)] { State.construct v with I := 0x400 })).map
        (fun t => ([0x400, 0x401, 0x402].map t.mem.read, t.I))) =
      [some ([0x11, 0x22, 0], 0x402), some ([0x11, 0x22, 0], 0x400), some ([0x11, 0x22, 0], 0x402)] := by decide

/-- V-M12. -/
theorem test_ldMemVx_fault :
    faultAfter 0xFF55 { State.reset with I := 0x0FF1 } = some (.addressOutOfRange 0x1000) := by decide

/-- V-M13. -/
theorem test_ldVxMem :
    [Variant.original, .superChip, .extended].map (fun v =>
      (after 0xF265 (regs [(3, 0xEE)] (bytes 0x300 [2, 5, 4] { State.construct v with I := 0x300 }))).map
        (fun t => ([0, 1, 2, 3].map t.getV, t.I))) =
      [some ([2, 5, 4, 0xEE], 0x303), some ([2, 5, 4, 0xEE], 0x300), some ([2, 5, 4, 0xEE], 0x303)] := by decide

/-- V-M15. -/
theorem test_ldVxMem_fault :
    faultAfter 0xF065 { State.reset with I := 0x1000 } = some (.addressOutOfRange 0x1000) := by decide

/-! ### Display -/

/-- V-D14. -/
theorem test_cls :
    (after 0x00E0 (regs [(0xF, 1)] { State.reset with fb := Vector.replicate 32 (Vector.replicate 64 true) })).map
      (fun t => (t.fb, t.dirty, t.getV 0xF)) = some (Framebuffer.blank, true, 1) := by decide

/-- T8, with the bit order of V-D11: clipped on the right, nothing on the left. -/
theorem test_drw :
    (after 0xD011 (regs [(0, 60)] (bytes 0x300 [0xB7] { State.reset with I := 0x300 }))).map
      (fun t => (lit 0 t, t.getV 0xF, t.dirty)) = some ([60, 62, 63], 0, true) := by decide

/-- V-D19: the old VF is the column. -/
theorem test_drw_vf :
    (after 0xDF01 (regs [(0xF, 5), (0, 2)] (bytes 0x300 [0x80] { State.reset with I := 0x300 }))).map
      (fun t => (lit 2 t, t.getV 0xF)) = some ([5], 0) := by decide

/-! ### Timers and keys -/

/-- V-T1. -/
theorem test_ldVxDt :
    (after 0xF207 { State.reset with dt := 5 }).map (fun t => (t.getV 2, t.dt)) = some (5, 5) := by decide

/-- V-T2. -/
theorem test_ldDtVx : (after 0xF115 (regs [(1, 7)] .reset)).map (fun t => (t.dt, t.st)) = some (7, 0) := by decide

/-- V-T3. -/
theorem test_ldStVx : (after 0xF318 (regs [(3, 0x1E)] .reset)).map (fun t => (t.dt, t.st)) = some (0, 0x1E) := by decide

/-- V-T11, V-T7: the level of the current latch only. -/
theorem test_skp :
    (after 0xE49E (regs [(4, 15)] (keys [] [15] .reset))).map State.pc = some 0x0204 ∧
    (after 0xE49E (regs [(4, 7)] (keys [7] [] .reset))).map State.pc = some 0x0202 := by decide

/-- V-F4. -/
theorem test_skp_fault : faultAfter 0xE09E (regs [(0, 0xFF)] .reset) = some (.keyIndexOutOfRange 0xFF) := by decide

/-- V-T8, V-T9. -/
theorem test_sknp :
    (after 0xE4A1 (regs [(4, 7)] .reset)).map State.pc = some 0x0204 ∧
    (after 0xE4A1 (regs [(4, 7)] (keys [] [7] .reset))).map State.pc = some 0x0202 := by decide

/-- V-T10. -/
theorem test_sknp_fault : faultAfter 0xE4A1 (regs [(4, 0x10)] .reset) = some (.keyIndexOutOfRange 0x10) := by decide

/-- T11, V-T13, V-T12. -/
theorem test_ldVxK :
    (after 0xF10A (keys [3] [] .reset)).map (fun t => (t.getV 1, t.pc)) = some (3, 0x0202) ∧
    (after 0xF10A (keys [] [5] .reset)).map (fun t => (t.getV 1, t.pc)) = some (0, 0x0200) ∧
    (after 0xF10A (keys [5] [5] .reset)).map (fun t => (t.getV 1, t.pc)) = some (0, 0x0200) := by decide

/-- V-T14: one of the two keys, whichever `KEYWAIT_PICK` takes. -/
theorem test_ldVxK_two : releasedKeys (keys [3, 9] [] .reset) = [3, 9] := by decide

/-! ### Host transactions -/

/-- V-T4. -/
theorem test_decrementTimers :
    (decrementTimers { State.reset with dt := 2, st := 1 }).dt = 1 ∧
    (decrementTimers (decrementTimers { State.reset with dt := 2, st := 1 })).st = 0 := by decide

/-- V-H6. -/
theorem test_keys : releasedKeys (keySet 4 false (keySnapshot (keySet 4 true .reset))) = [4] := by decide

/-- T1, V-H2. -/
theorem test_loadRom :
    transact (.loadRom [0xFF]) (loadRom [0x12, 0x00] .reset) =
      .next (loadRom [0x12, 0x00] .reset, .diagnostic .romAlreadyLoaded) ∧
    [0x200, 0x201, 0x202].map (loadRom [0xA2, 0x0C, 0x60] .reset).mem.read = [0xA2, 0x0C, 0x60] := ⟨rfl, by decide⟩

/-! ### Witnesses: for each statement with hypotheses, a state and operands that meet all of them, clause by clause -/

/-- The bytes of a word placed at an address. -/
def word (a : Nat) (w : Word) (s : State) : State := bytes a [highByte w, lowByte w] s

theorem test_witness_DecodeInvertsEncode :
    (Instr.drw 0xF 0xF 15).WellFormed ∧ (Instr.drw 0 0 0).WellFormed ∧ (Instr.jp 0xFFF).WellFormed := by decide

theorem test_witness_EncodeInvertsDecode : decodeWord 0xDFFF = .ok (.drw 0xF 0xF 15) := by decide

theorem test_witness_DecoderFollowsTheOpcodeTable :
    decodeWord 0x811E = .ok (.shlVxVy 1 1) ∧
    Instr.row (.shlVxVy 0 0) ∈ opcodeTable ∧ 0x811E#16 &&& 0xF00F = (Instr.row (.shlVxVy 0 0)).pattern := by decide

theorem test_witness_StepRunsDecodedInstruction :
    (word 0x200 0x1234 .reset).status = .running ∧ FetchesBytes (word 0x200 0x1234 .reset) 0x12 0x34 ∧
    decodeWord (0x12#8 ++ 0x34#8) = .ok (.jp 0x234) ∧ (Instr.jp 0x234).WellFormed :=
  ⟨rfl, ⟨rfl, rfl⟩, by decide, by decide⟩

theorem test_witness_UnrecognisedWordIsLoggedNoOp :
    State.reset.status = .running ∧ FetchesBytes .reset 0 0 ∧
    decodeWord (0#8 ++ 0#8) = .error (.unrecognised 0) := ⟨rfl, ⟨rfl, rfl⟩, by decide⟩

theorem test_witness_StepRunsPlacedWord : State.reset.mem.wf ∧ (Instr.drw 0 0 15).WellFormed := by decide

theorem test_witness_FetchFaultsAbove0xFFE :
    State.reset.status = .running ∧
    ({ State.reset with pc := 0x0FFE } : State).pc.toNat ≤ 0xFFE ∧
    0xFFE < ({ State.reset with pc := 0x0FFF } : State).pc.toNat ∧
    0xFFF < ({ State.reset with pc := 0x1000 } : State).pc.toNat := by decide

theorem test_witness_FaultedCoreHasNoSuccessor :
    ({ State.reset with status := .faulted (.addressOutOfRange 0x1000) } : State).status =
      .faulted (.addressOutOfRange 0x1000) := rfl

theorem test_witness_StepFaultsExactlyByTheTable :
    (word 0x200 0x00EE .reset).status = .running ∧ FetchesBytes (word 0x200 0x00EE .reset) 0x00 0xEE := ⟨rfl, rfl, rfl⟩

theorem test_witness_FaultingStepHaltsForGood :
    (word 0x200 0x00EE .reset).status = .running ∧ step (word 0x200 0x00EE .reset) = .fault .stackUnderflow := ⟨rfl, rfl⟩

/-- The boundaries of `faultOf`: the last access in memory and the first outside, for a base inside and above memory. -/
theorem test_witness_InstructionFaultsAreTheTable :
    faultOf (.ldBVx 0) { State.reset with I := 0x0FFD } = none ∧
    faultOf (.ldBVx 0) { State.reset with I := 0x0FFE } = some (.addressOutOfRange 0x1000) ∧
    faultOf (.ldMemVx 0xF) { State.reset with I := 0x0FF0 } = none ∧
    faultOf (.ldMemVx 0xF) { State.reset with I := 0x0FF1 } = some (.addressOutOfRange 0x1000) ∧
    faultOf (.ldVxMem 0) { State.reset with I := 0xFFFF } = some (.addressOutOfRange 0xFFFF) ∧
    faultOf (.drw 0 0 0) { State.reset with I := 0xFFFF } = none ∧
    faultOf (.skp 0) (regs [(0, 0x0F)] .reset) = none ∧
    faultOf (.sknp 0) (regs [(0, 0x10)] .reset) = some (.keyIndexOutOfRange 0x10) ∧
    faultOf .ret .reset = some .stackUnderflow := by decide

/-- The last word of memory, with a return address at the bound. -/
def atTop : State := { State.reset with pc := 0x0FFE, stack := [0x1000] }

theorem atTop_inv : atTop.Inv :=
  ⟨⟨.nil, fun _ h => nomatch h⟩, by decide, fun w h => by rw [List.mem_singleton.1 h]; decide⟩

theorem test_witness_StepKeepsInvariant : atTop.Inv ∧ ∃ t, step atTop = .next t := ⟨atTop_inv, ⟨_, rfl⟩⟩

theorem test_witness_TransactionsKeepInvariant :
    atTop.Inv ∧ ∃ t, transact (.loadRom [0xA2, 0x0C]) atTop = .next (t, .silent) ∧ t.status = .running :=
  ⟨atTop_inv, ⟨_, rfl, rfl⟩⟩

theorem test_witness_ConstructResetsEveryComponent :
    (0xFFF < 0x1000 ∧ (0xFFF < fontBase ∨ fontBase + 80 ≤ 0xFFF)) ∧ 0x200 < 0x1000 := by
  have := Config.fontBase.isLt
  unfold fontBase
  omega

theorem test_witness_StepNeverWritesHostState : ∃ t, step (word 0x200 0xF155 .reset) = .next t := ⟨_, rfl⟩

theorem test_witness_DirtyTellsDisplayInstruction :
    FetchesWord (word 0x200 0x00E0 .reset) 0x00E0 ∧ ∃ t, step (word 0x200 0x00E0 .reset) = .next t :=
  ⟨⟨0x00, 0xE0, ⟨rfl, rfl⟩, by decide⟩, ⟨_, rfl⟩⟩

/-- A non-skip, a skip that moves `pc`, a writer of `V`, and on SuperChip a block load. -/
theorem test_witness_ComponentsWrittenOnlyByTheirInstructions :
    (∃ t, exec (.ldBVx 0) { State.reset with I := 0x0FFD } = .next t) ∧
    (∃ t, exec (.seVxNn 0 0) .reset = .next t ∧ t.pc = State.reset.pc + 2) ∧
    (∃ t, exec (.ldVxMem 0xF) { State.construct .superChip with I := 0x0FF0 } = .next t) :=
  ⟨⟨_, rfl⟩, ⟨_, rfl, rfl⟩, ⟨_, rfl⟩⟩

theorem test_witness_RegistersWrittenOnlyByTheirInstructions :
    (∃ t, exec (.orVxVy 1 2) (.construct .superChip) = .next t) ∧
    writesReg .superChip (.orVxVy 1 2) vf = false ∧ writesReg .original (.orVxVy 1 2) 0 = false :=
  ⟨⟨_, rfl⟩, by decide, by decide⟩

theorem test_witness_VariantReachesOnlySixFamilies :
    consultsVariant .ret = false ∧ (∃ t, exec .ret { State.reset with stack := [0x0202] } = .next t) ∧
    exec .ret .reset = .fault .stackUnderflow := ⟨rfl, ⟨_, rfl⟩, rfl⟩

theorem test_witness_SoundTimerAndHostFlagsUnobserved : ∃ t, exec (.ldStVx 0) .reset = .next t := ⟨_, rfl⟩

theorem test_witness_MemoryCanonicalFormIsUnique :
    Memory.wf [(0x200, 1), (0xFFF, 2)] ∧
    ∀ a, Memory.read [(0x200, 1), (0xFFF, 2)] a = Memory.read ((Memory.write [] 0xFFF 2).write 0x200 1) a :=
  ⟨by decide, fun _ => by rw [show (Memory.write [] 0xFFF 2).write 0x200 1 = [(0x200, 1), (0xFFF, 2)] by decide]⟩

theorem test_witness_ReturnPopsStack :
    ({ State.reset with stack := [0x1000, 0x0FFF] } : State).stack = 0x1000 :: [0x0FFF] ∧
    ({ State.reset with stack := [0x0FFF] } : State).stack = 0x0FFF :: [] ∧
    State.reset.status = .running ∧ State.reset.stack = [] := ⟨rfl, rfl, rfl, rfl⟩

theorem test_witness_JumpLoadsPc : (0xFFF : Imm12) = 0xFFF ∧ State.reset.status = .running := ⟨rfl, rfl⟩

theorem test_witness_CallPushesReturnAddress :
    ({ State.reset with stack := [0x0202] } : State).stack.length < 2 ∧
    1 ≤ ({ State.reset with stack := [0x0202] } : State).stack.length := by decide

theorem test_witness_ImmediateSkips :
    (regs [(3, 0x42)] .reset).getV 3 = 0x42 ∧ (regs [(3, 0x42)] .reset).getV 3 ≠ 0x43 := by decide

theorem test_witness_RegisterSkips :
    (regs [(1, 0x80), (2, 0x80)] .reset).getV 1 = (regs [(1, 0x80), (2, 0x80)] .reset).getV 2 ∧
    (regs [(1, 0x80), (2, 0x7F)] .reset).getV 1 ≠ (regs [(1, 0x80), (2, 0x7F)] .reset).getV 2 ∧
    (1#4 ≠ 0) := by decide

theorem test_witness_JumpWithOffset :
    State.reset.variant ≠ .superChip ∧ (State.construct .superChip).variant = .superChip ∧
    (0xF : Reg).val = (0xFFF : Imm12).toNat / 256 := by decide

theorem test_witness_SelfJumpIsStable :
    (word 0x200 0x1200 .reset).status = .running ∧ FetchesWord (word 0x200 0x1200 .reset) (formatA 0x1 0x200) ∧
    (word 0x200 0x1200 .reset).pc.toNat = (0x200 : Imm12).toNat :=
  ⟨rfl, ⟨0x12, 0x00, ⟨rfl, rfl⟩, by decide⟩, by decide⟩

theorem test_witness_FinishedCoreStaysFinished :
    (word 0x200 0x1200 .reset).Finished ∧ (∀ v, Transaction.decrementTimers ≠ .construct v) ∧
    (∀ bs, Transaction.decrementTimers ≠ .loadRom bs) ∧
    ({ word 0x200 0x1200 .reset with loaded := true } : State).Finished :=
  ⟨⟨rfl, 0x200, ⟨0x12, 0x00, ⟨rfl, rfl⟩, by decide⟩, by decide⟩, by simp, by simp,
    ⟨rfl, 0x200, ⟨0x12, 0x00, ⟨rfl, rfl⟩, by decide⟩, by decide⟩⟩

theorem test_witness_CallToSelfGrowsStack :
    (word 0x200 0x2200 .reset).status = .running ∧ FetchesWord (word 0x200 0x2200 .reset) (formatA 0x2 0x200) ∧
    (word 0x200 0x2200 .reset).pc.toNat = (0x200 : Imm12).toNat :=
  ⟨rfl, ⟨0x22, 0x00, ⟨rfl, rfl⟩, by decide⟩, by decide⟩

theorem test_witness_CallAndReturnInTwoSteps :
    let s := word 0xFFE 0x00EE (word 0x200 0x2FFE .reset)
    s.status = .running ∧ FetchesWord s (formatA 0x2 0xFFE) ∧
    memRead (0xFFE : Imm12).toNat s = .ok 0x00 ∧ memRead ((0xFFE : Imm12).toNat + 1) s = .ok 0xEE :=
  ⟨rfl, ⟨0x2F, 0xFE, ⟨rfl, rfl⟩, by decide⟩, rfl, rfl⟩

/-- Both sides of the premise on the variant, and of the destination being VF. -/
theorem test_witness_LogicResults :
    State.reset.variant = .original ∧ (State.construct .extended).variant ≠ .original ∧ (0xE : Reg) ≠ vf := by decide

theorem test_witness_AddSetsCarry : (regs [(0, 0xFF), (1, 1)] .reset).getV 0 = 0xFF ∧ (0 : Reg) ≠ vf := by decide

theorem test_witness_BcdStoresThreeDigits :
    State.reset.mem.wf ∧ ({ State.reset with I := 0x0FFD } : State).I.toNat ≤ 0xFFD ∧
    0xFFD < ({ State.reset with I := 0x0FFE } : State).I.toNat := by decide

theorem test_witness_BlockStoreWritesRegisters :
    State.reset.mem.wf ∧ ({ State.reset with I := 0x0FF0 } : State).I.toNat + (0xF : Reg).val ≤ 0xFFF ∧
    0xFFF < ({ State.reset with I := 0x0FF1 } : State).I.toNat + (0xF : Reg).val := by decide

theorem test_witness_BlockLoadReadsRegisters :
    ({ State.reset with I := 0x0FFF } : State).I.toNat + (0 : Reg).val ≤ 0xFFF ∧
    0xFFF < ({ State.reset with I := 0x0FFF } : State).I.toNat + (1 : Reg).val := by decide

theorem test_witness_BlockStoreThenLoad :
    State.reset.mem.wf ∧ ∃ t, exec (.ldMemVx 0xF) { State.reset with I := 0x0FF0 } = .next t :=
  ⟨by decide, ⟨_, rfl⟩⟩

theorem test_witness_StoredWordIsFetchedNext :
    let s := regs [(0, 0x60), (1, 0x99)] { State.reset with pc := 0x0202, I := 0x0202 }
    s.mem.wf ∧ s.status = .running ∧ (∃ t, exec (.ldMemVx 1) s = .next t) ∧ (1 : Reg).val = (0 : Reg).val + 1 ∧
    (1 : Reg) ≤ 1 ∧ s.pc.toNat = s.I.toNat + (0 : Reg).val ∧
    decodeWord (s.getV 0 ++ s.getV 1) = .ok (.ldVxNn 0 0x99) ∧ (Instr.ldVxNn 0 0x99).WellFormed :=
  ⟨by decide, rfl, ⟨_, rfl⟩, rfl, by decide, by decide, by decide, by decide⟩

theorem test_witness_FontGlyphsAtReset :
    let s := regs [(0, 0x0F)] (.construct .extended)
    s.mem = (State.construct .extended).mem ∧ (s.getV 0).toNat = (15 : Fin 16).val ∧
    ∃ t, exec (.ldFVx 0) s = .next t := ⟨rfl, by decide, ⟨_, rfl⟩⟩

/-- The premise's two sides at their boundary, then a sprite pixel on a lit pixel and a sprite that meets none. -/
theorem test_witness_DrawIsPixelwiseXor :
    ({ State.reset with I := 0x0FF1 } : State).I.toNat + 15 ≤ 0x1000 ∧
    (∃ (row : Fin 32) (col : Fin 64),
      (bytes 0x300 [0x80] { State.reset with I := 0x300, fb := Vector.replicate 32 (Vector.replicate 64 true) }).pixel row col
        = true ∧
      spriteBit (bytes 0x300 [0x80] { State.reset with I := 0x300 }) 0 0 1 row.val col.val = true) ∧
    ∀ (row : Fin 32) (col : Fin 64), State.reset.pixel row col = false :=
  ⟨by decide, ⟨0, 0, by decide, by decide⟩,
    by simp [State.pixel, State.reset, State.construct, Framebuffer.blank]⟩

theorem test_witness_DrawTwiceRestoresDisplay :
    ∃ t, exec (.drw 0xF 0 2) { State.reset with I := 0x0FFE } = .next t := ⟨_, rfl⟩

theorem test_witness_KeySkipsTestCurrentLevel :
    ((regs [(4, 0x0F)] .reset).getV 4).toNat = (15 : Key).val ∧ 15 < ((regs [(4, 0x10)] .reset).getV 4).toNat := by decide

theorem test_witness_KeyWaitReportsARelease :
    (∀ k : Key, ¬ ((keys [5] [5] .reset).keyPrev[k] = true ∧ (keys [5] [5] .reset).keyCur[k] = false)) ∧
    ∃ k : Key, (keys [3] [] .reset).keyPrev[k] = true ∧ (keys [3] [] .reset).keyCur[k] = false := by decide

theorem test_witness_KeyWaitStepRearms :
    (word 0x200 0xF10A .reset).status = .running ∧ FetchesWord (word 0x200 0xF10A .reset) (formatI 0xF 1 0x0A) ∧
    ∀ k : Key, ¬ ((word 0x200 0xF10A .reset).keyPrev[k] = true ∧ (word 0x200 0xF10A .reset).keyCur[k] = false) :=
  ⟨rfl, ⟨0xF1, 0x0A, ⟨rfl, rfl⟩, by decide⟩, by decide⟩

theorem test_witness_TimersCountDown :
    State.reset.status = .running ∧ ∃ t, exec (.ldDtVx 1) (regs [(1, 7)] .reset) = .next t := ⟨rfl, ⟨_, rfl⟩⟩

theorem test_witness_KeyLatchTransactions : (keys [4] [4, 15] .reset).status = .running ∧ (4 : Key) ≠ 15 := by decide

theorem test_witness_LoadRomWritesProgram :
    State.reset.status = .running ∧ State.reset.mem.wf ∧ State.reset.loaded = false ∧
    (List.replicate 3584 0xAB#8).length ≤ 3584 ∧ ([] : List Byte).length ≤ 3584 ∧
    (loadRom [0x12, 0x00] .reset).loaded = true :=
  ⟨rfl, by decide, rfl, by rw [List.length_replicate], by decide, rfl⟩

theorem test_witness_DisplayReadChangesNothing : State.reset.status = .running := rfl

end Sys2Proof.Tests
end

section
/-! SUPPORT. What the words 1nnn, 3xnn, 4xnn, 5xy_ and 9xy_ decode to (spec 30_encoding.md R51 to R54): each from its fields and
its leading nibble. -/

namespace Sys2Proof

theorem decodeWord_formatA_jp (nnn : Imm12) : decodeWord (formatA 0x1 nnn) = .ok (.jp nnn) := by
  rw [decodeWord_op1 (opField_formatA 0x1 nnn), nnnField_formatA]

theorem decodeWord_formatI_seVxNn (x : Reg) (nn : Byte) : decodeWord (formatI 0x3 x nn) = .ok (.seVxNn x nn) := by
  rw [decodeWord_op3 (opField_formatI 0x3 x nn), xField_formatI, nnField_formatI]

theorem decodeWord_formatI_sneVxNn (x : Reg) (nn : Byte) : decodeWord (formatI 0x4 x nn) = .ok (.sneVxNn x nn) := by
  rw [decodeWord_op4 (opField_formatI 0x4 x nn), xField_formatI, nnField_formatI]

theorem decode5_zero {w : Word} (h : nField w = 0) : decode5 w = .ok (.seVxVy (xField w) (yField w)) := by
  unfold decode5; rw [h]; rfl

theorem decode5_ne_zero {w : Word} (h : nField w ≠ 0) : decode5 w = .error (.unrecognised w) := by
  unfold decode5
  split
  · exact absurd ‹_› h
  · rfl

theorem decode9_zero {w : Word} (h : nField w = 0) : decode9 w = .ok (.sneVxVy (xField w) (yField w)) := by
  unfold decode9; rw [h]; rfl

theorem decode9_ne_zero {w : Word} (h : nField w ≠ 0) : decode9 w = .error (.unrecognised w) := by
  unfold decode9
  split
  · exact absurd ‹_› h
  · rfl

theorem decodeWord_formatR_seVxVy (x y : Reg) : decodeWord (formatR 0x5 x y 0) = .ok (.seVxVy x y) := by
  rw [decodeWord_op5 (opField_formatR 0x5 x y 0), decode5_zero (nField_formatR 0x5 x y 0), xField_formatR, yField_formatR]

theorem decodeWord_formatR_sneVxVy (x y : Reg) : decodeWord (formatR 0x9 x y 0) = .ok (.sneVxVy x y) := by
  rw [decodeWord_op9 (opField_formatR 0x9 x y 0), decode9_zero (nField_formatR 0x9 x y 0), xField_formatR, yField_formatR]

/-- 5xyn with `n` other than 0 matches no row (R54). -/
theorem decodeWord_formatR_op5_unrecognised (x y : Reg) {n : BitVec 4} (h : n ≠ 0) :
    decodeWord (formatR 0x5 x y n) = .error (.unrecognised (formatR 0x5 x y n)) := by
  rw [decodeWord_op5 (opField_formatR 0x5 x y n), decode5_ne_zero (by rwa [nField_formatR])]

/-- 9xyn with `n` other than 0 matches no row (R54). -/
theorem decodeWord_formatR_op9_unrecognised (x y : Reg) {n : BitVec 4} (h : n ≠ 0) :
    decodeWord (formatR 0x9 x y n) = .error (.unrecognised (formatR 0x9 x y n)) := by
  rw [decodeWord_op9 (opField_formatR 0x9 x y n), decode9_ne_zero (by rwa [nField_formatR])]

end Sys2Proof
end

section
/-! SUPPORT. What the jump, the return and the four comparing skips do to the state (spec 40_control.md), and the Step at the end of
memory (60_exceptions.md R120). -/

namespace Sys2Proof.Machine

/-! ### The jump and the return -/

theorem exec_jp (nnn : Imm12) (s : State) : exec (.jp nnn) s = .next (s.setPc (zextImm nnn)) := rfl

@[simp] theorem zextImm_toNat (nnn : Imm12) : (zextImm nnn).toNat = nnn.toNat :=
  BitVec.toNat_setWidth_of_le (by decide)

theorem exec_ret (s : State) : exec .ret s = finish (popReturn s) := rfl

theorem exec_ret_cons {s : State} {w : Word} {rest : List Word} (h : s.stack = w :: rest) :
    exec .ret s = .next ((s.setStack rest).setPc w) := by
  rw [exec_ret, finish_next, popReturn_cons h]

theorem exec_ret_nil {s : State} (h : s.stack = []) : exec .ret s = .fault .stackUnderflow := by
  rw [exec_ret, finish_fault, popReturn_nil h]

/-! ### The skips -/

theorem exec_seVxNn (x : Reg) (nn : Byte) (s : State) :
    exec (.seVxNn x nn) s = .next (skipIf (s.getV x == nn) s) := rfl

theorem exec_sneVxNn (x : Reg) (nn : Byte) (s : State) :
    exec (.sneVxNn x nn) s = .next (skipIf (s.getV x != nn) s) := rfl

theorem exec_seVxVy (x y : Reg) (s : State) :
    exec (.seVxVy x y) s = .next (skipIf (s.getV x == s.getV y) s) := rfl

theorem exec_sneVxVy (x y : Reg) (s : State) :
    exec (.sneVxVy x y) s = .next (skipIf (s.getV x != s.getV y) s) := rfl

/-- On equal operands the skip on equality is taken and the skip on inequality is not (R63 to R66, R68). -/
theorem skipIf_of_eq {a b : Byte} (h : a = b) (s : State) :
    skipIf (a == b) s = { s with pc := s.pc + 2 } ∧ skipIf (a != b) s = s := by
  rw [beq_iff_eq.2 h, bne_eq_false_iff_eq.2 h]
  exact ⟨rfl, rfl⟩

/-- On different operands it is the other way round (R63 to R66, R68). -/
theorem skipIf_of_ne {a b : Byte} (h : a ≠ b) (s : State) :
    skipIf (a == b) s = s ∧ skipIf (a != b) s = { s with pc := s.pc + 2 } := by
  rw [beq_eq_false_iff_ne.2 h, bne_iff_ne.2 h]
  exact ⟨rfl, rfl⟩

/-! ### The Step at the end of memory -/

/-- A running core whose word reaches past memory faults at the fetch, with the first address outside it (R46, R120). -/
theorem step_fetch_fault {s : State} (hs : s.status = .running) (h : ¬ s.pc.toNat + 1 < memSize) :
    step s = .fault (.addressOutOfRange (max s.pc.toNat memSize)) := by
  simp [step, hs, stepRunning, fetch_error h, raise]

/-- With `pc` at the last byte of memory or just past it, the address the fetch faults with is 0x1000 (R60, R61). -/
theorem step_fault_at_memory_end {s : State} (hs : s.status = .running) (hpc : s.pc = 0x0FFF ∨ s.pc = 0x1000) :
    step s = .fault (.addressOutOfRange 0x1000) := by
  obtain h | h := hpc <;> simpa [h, memSize] using step_fetch_fault hs

end Sys2Proof.Machine
end

section
/-! PROOFS. Control transfer (spec 40_control.md): the jump, the return and the comparing skips. -/

namespace Sys2Proof.Machine

/-- Settles O25: the jump is one write of `pc`, and a jump to 0xFFF leaves `pc` at the last byte of memory (R61). -/
theorem jumpLoadsPc : Obligations.JumpLoadsPc := by
  intro nnn s
  refine ⟨decodeWord_formatA_jp nnn, _, exec_jp nnn s, zextImm_toNat nnn, rfl, State.setPc_memRead s _, ?_⟩
  rintro rfl hs
  exact step_fault_at_memory_end hs (.inl rfl)

/-- Settles O26, by the two cases of the stack (R60, R119). -/
theorem returnPopsStack : Obligations.ReturnPopsStack := by
  refine ⟨decodeWord_op0 rfl, fun s => ⟨fun w rest h => ?_, exec_ret_nil⟩⟩
  exact ⟨_, exec_ret_cons h, rfl, fun _ => rfl, fun hw hs => step_fault_at_memory_end hs hw⟩

/-- Settles O28: both instructions are the shared skip, on `V[x]` and `nn` (R63, R64, R68). -/
theorem immediateSkips : Obligations.ImmediateSkips := by
  intro x nn s
  refine ⟨decodeWord_formatI_seVxNn x nn, decodeWord_formatI_sneVxNn x nn, fun h => ?_, fun h => ?_⟩
  · simp only [exec_seVxNn, exec_sneVxNn, skipIf_of_eq h, and_self]
  · simp only [exec_seVxNn, exec_sneVxNn, skipIf_of_ne h, and_self]

/-- Settles O29: both instructions are the shared skip, on `V[x]` and `V[y]`; a trailing nibble other than 0 has no row (R65, R66,
R68). -/
theorem registerSkips : Obligations.RegisterSkips := by
  intro x y s
  refine ⟨decodeWord_formatR_seVxVy x y, decodeWord_formatR_sneVxVy x y, fun n hn =>
    ⟨decodeWord_formatR_op5_unrecognised x y hn, decodeWord_formatR_op9_unrecognised x y hn⟩, fun h => ?_, fun h => ?_⟩
  · simp only [exec_seVxVy, exec_sneVxVy, skipIf_of_eq h, and_self]
  · simp only [exec_seVxVy, exec_sneVxVy, skipIf_of_ne h, and_self]

end Sys2Proof.Machine
end

section
/-! SUPPORT. What the words 6xnn, 7xnn and 8xy0 decode to (spec 30_encoding.md R51), each from its fields and its leading nibble. -/

namespace Sys2Proof

theorem decodeWord_formatI_ldVxNn (x : Reg) (nn : Byte) : decodeWord (formatI 0x6 x nn) = .ok (.ldVxNn x nn) := by
  rw [decodeWord_op6 (opField_formatI 0x6 x nn), xField_formatI, nnField_formatI]

theorem decodeWord_formatI_addVxNn (x : Reg) (nn : Byte) : decodeWord (formatI 0x7 x nn) = .ok (.addVxNn x nn) := by
  rw [decodeWord_op7 (opField_formatI 0x7 x nn), xField_formatI, nnField_formatI]

theorem decode8_zero {w : Word} (h : nField w = 0) : decode8 w = .ok (.ldVxVy (xField w) (yField w)) := by
  unfold decode8; rw [h]; rfl

theorem decodeWord_formatR_ldVxVy (x y : Reg) : decodeWord (formatR 0x8 x y 0) = .ok (.ldVxVy x y) := by
  rw [decodeWord_op8 (opField_formatR 0x8 x y 0), decode8_zero (nField_formatR 0x8 x y 0), xField_formatR, yField_formatR]

end Sys2Proof
end

section
/-! SUPPORT. The three instructions without a flag are one register write (spec 41_alu.md R71 to R73), and what a register write
leaves unchanged. -/

namespace Sys2Proof.Machine

theorem exec_ldVxNn (x : Reg) (nn : Byte) (s : State) : exec (.ldVxNn x nn) s = .next (s.setV x nn) := rfl

theorem exec_addVxNn (x : Reg) (nn : Byte) (s : State) : exec (.addVxNn x nn) s = .next (s.setV x (s.getV x + nn)) := rfl

theorem exec_ldVxVy (x y : Reg) (s : State) : exec (.ldVxVy x y) s = .next (s.setV x (s.getV y)) := rfl

/-- A register write changes no memory, no pixel and no component but `V`. -/
theorem onlyRegisters_setV (s : State) (x : Reg) (b : Byte) : OnlyRegisters s (s.setV x b) :=
  ⟨State.setV_eq s x b, State.setV_memRead s x b, State.setV_pixel s x b, State.setV_dirty s x b⟩

/-- The frame of a register write: every other register, and everything that is not a register. -/
theorem setV_frame (s : State) (x : Reg) (b : Byte) :
    (∀ r, r ≠ x → (s.setV x b).getV r = s.getV r) ∧ OnlyRegisters s (s.setV x b) :=
  ⟨fun _ hr => State.getV_setV_other s b hr, onlyRegisters_setV s x b⟩

end Sys2Proof.Machine
end

section
/-! PROOFS. Registers and arithmetic (spec 41_alu.md): the load, the sum without a flag and the copy. -/

namespace Sys2Proof.Machine

/-- Settles O34: each of the three instructions is one register write, so its frame is that of `State.setV` (R71, R72, R73). -/
theorem loadAddCopyRegister : Obligations.LoadAddCopyRegister := by
  intro x y nn s
  refine ⟨decodeWord_formatI_ldVxNn x nn, decodeWord_formatI_addVxNn x nn, decodeWord_formatR_ldVxVy x y,
    ⟨_, exec_ldVxNn x nn s, State.getV_setV_same s x _, setV_frame s x _⟩,
    ⟨_, exec_addVxNn x nn s, ?_, setV_frame s x _⟩,
    ⟨_, exec_ldVxVy x y s, State.getV_setV_same s x _, setV_frame s x _⟩⟩
  rw [State.getV_setV_same, BitVec.toNat_add]

end Sys2Proof.Machine
end

section
/-! SUPPORT. What the words Annn and Fx29 decode to (spec 30_encoding.md R51), each from its fields and its leading nibble. -/

namespace Sys2Proof

theorem decodeWord_formatA_ldINnn (nnn : Imm12) : decodeWord (formatA 0xA nnn) = .ok (.ldINnn nnn) := by
  rw [decodeWord_opA (opField_formatA 0xA nnn), nnnField_formatA]

theorem decodeF_0x29 {w : Word} (h : nnField w = 0x29) : decodeF w = .ok (.ldFVx (xField w)) := by
  unfold decodeF; rw [h]; rfl

theorem decodeWord_formatI_ldFVx (x : Reg) : decodeWord (formatI 0xF x 0x29) = .ok (.ldFVx x) := by
  rw [decodeWord_opF (opField_formatI 0xF x 0x29), decodeF_0x29 (nnField_formatI 0xF x 0x29), xField_formatI]

end Sys2Proof
end

section
/-! SUPPORT. The loads of the index register are one write of `I` (spec 42_index_memory.md R85, R87), what such a write leaves
unchanged, and the address of a glyph. -/

namespace Sys2Proof.Machine

theorem exec_ldINnn (nnn : Imm12) (s : State) : exec (.ldINnn nnn) s = .next (s.setI (zextImm nnn)) := rfl

theorem exec_ldFVx (x : Reg) (s : State) : exec (.ldFVx x) s = .next (s.setI (glyphAddress (s.getV x))) := rfl

/-- The frame of a write of `I`: every other component, and every memory read. -/
theorem setI_frame (s : State) (w : Word) : s.setI w = { s with I := (s.setI w).I } ∧ SameMemory s (s.setI w) :=
  ⟨rfl, State.setI_memRead s w⟩

/-- Masking a byte with 0x0F keeps its low nibble (R87). -/
theorem toNat_and_0x0F (b : Byte) : (b &&& 0x0F).toNat = b.toNat % 16 := by
  rw [BitVec.toNat_and]
  exact Nat.and_two_pow_sub_one_eq_mod b.toNat 4

theorem fontBase_le : fontBase ≤ 432 := Nat.le_of_lt_succ Config.fontBase.isLt

/-- The glyph address never wraps: the font table lies below `PROG_START` (R31, R87). -/
theorem glyphAddress_toNat (b : Byte) : (glyphAddress b).toNat = fontBase + 5 * (b.toNat % 16) := by
  rw [glyphAddress, BitVec.toNat_ofNat, toNat_and_0x0F]
  have := fontBase_le
  omega

end Sys2Proof.Machine
end

section
/-! PROOFS. Index register and memory (spec 42_index_memory.md): the two loads of `I`. -/

namespace Sys2Proof.Machine

/-- Settles O40: each of the two instructions is one write of `I`, so its frame is that of `State.setI`; the glyph address fits 16 bits
wherever `FONT_BASE` is (R85, R87). -/
theorem indexLoads : Obligations.IndexLoads := by
  intro nnn x s
  exact ⟨decodeWord_formatA_ldINnn nnn, decodeWord_formatI_ldFVx x,
    ⟨_, exec_ldINnn nnn s, zextImm_toNat nnn, setI_frame s _⟩,
    ⟨_, exec_ldFVx x s, glyphAddress_toNat (s.getV x), setI_frame s _⟩⟩

end Sys2Proof.Machine
end

section
/-! SUPPORT. The clear is one write of the blank framebuffer and one of the dirty flag (spec 43_display.md R93), and what such a pair of
writes leaves unchanged. -/

namespace Sys2Proof.Machine

theorem exec_cls (s : State) : exec .cls s = .next ((s.setFb Framebuffer.blank).setDirty true) := rfl

theorem blank_getElem (row : Fin 32) (col : Fin 64) : Framebuffer.blank[row][col] = false := by
  simp [Framebuffer.blank]

/-- A framebuffer write shows: each pixel is the new framebuffer's. -/
theorem setFb_pixel (s : State) (f : Framebuffer) (row : Fin 32) (col : Fin 64) : (s.setFb f).pixel row col = f[row][col] := rfl

/-- The frame of a write of the display, pixels and dirty flag: every other component, every register (VF too) and every memory
read. -/
theorem setFb_setDirty_frame (s : State) (f : Framebuffer) (b : Bool) :
    (s.setFb f).setDirty b = { s with fb := ((s.setFb f).setDirty b).fb, dirty := ((s.setFb f).setDirty b).dirty } ∧
      (∀ r, ((s.setFb f).setDirty b).getV r = s.getV r) ∧ SameMemory s ((s.setFb f).setDirty b) :=
  ⟨rfl, State.setFb_getV s f, State.setFb_memRead s f⟩

end Sys2Proof.Machine
end

section
/-! PROOFS. Display (spec 43_display.md): the clear. -/

namespace Sys2Proof.Machine

/-- Settles O48: the clear writes the blank framebuffer and the dirty flag, so its frame is that of these two writes (R93). -/
theorem clearBlanksDisplay : Obligations.ClearBlanksDisplay := by
  refine ⟨decodeWord_op0 rfl, fun s => ⟨_, exec_cls s, fun row col => ?_, State.setDirty_dirty _ true,
    setFb_setDirty_frame s Framebuffer.blank true⟩⟩
  rw [State.setDirty_pixel, setFb_pixel, blank_getElem]

end Sys2Proof.Machine
end

section
/-! SUPPORT. What each transaction of a running core gives (spec 45_host_transactions.md R109 to R112), and what a timer counted down and
a key written read as. -/

namespace Sys2Proof.Machine

/-- On a running core a transaction is the running core's (R106). -/
theorem transact_running {s : State} (hs : s.status = .running) (tr : Transaction) : transact tr s = transactRunning tr s := by
  rw [transact, hs]

theorem transact_decrementTimers {s : State} (hs : s.status = .running) :
    transact .decrementTimers s = .next (decrementTimers s, .silent) := transact_running hs _

theorem transact_keySnapshot {s : State} (hs : s.status = .running) :
    transact .keySnapshot s = .next (keySnapshot s, .silent) := transact_running hs _

theorem transact_keySet {s : State} (hs : s.status = .running) (k : Key) (b : Bool) :
    transact (.keySet k b) s = .next (keySet k b s, .silent) := transact_running hs _

theorem transact_displayRead {s : State} (hs : s.status = .running) :
    transact .displayRead s = .next (s, .display s.fb s.dirty) := transact_running hs _

/-- Counting down is subtraction on the naturals, which also stops at 0 (R109). -/
theorem countDown_toNat (b : Byte) : (countDown b).toNat = b.toNat - 1 := by
  unfold countDown
  split
  · exact BitVec.toNat_sub_of_le (BitVec.le_def.2 ‹0 < b.toNat›)
  · omega

/-- The snapshot leaves the two latches equal (R110). -/
theorem keySnapshot_keyPrev (s : State) : (keySnapshot s).keyPrev = (keySnapshot s).keyCur := rfl

/-- With equal latches no key has a falling edge (R103, R110). -/
theorem not_fallingEdge_of_keyPrev_eq {s : State} (h : s.keyPrev = s.keyCur) (k : Key) :
    ¬ (s.keyPrev[k] = true ∧ s.keyCur[k] = false) := by
  rintro ⟨hp, hc⟩
  rw [h, hc] at hp
  cases hp

/-- Reading a key of the current latch after a write to one (R20: the keys are independent). -/
theorem keySet_keyCur (s : State) (k j : Key) (b : Bool) :
    (keySet k b s).keyCur[j] = if j = k then b else s.keyCur[j] := by
  simp only [keySet, Fin.getElem_fin, Vector.getElem_set, Fin.ext_iff, eq_comm]

end Sys2Proof.Machine
end

section
/-! SUPPORT. What an instruction that can fault or wait did, if it completed, and that no instruction but Fx15 and Fx18 writes a timer
(spec 10_state.md R19). -/

namespace Sys2Proof.Machine

/-! ### What a completed instruction did -/

theorem exec_ret_inv {s t : State} (h : exec .ret s = .next t) :
    ∃ w rest, s.stack = w :: rest ∧ t = (s.setStack rest).setPc w := by
  cases hs : s.stack with
  | nil => rw [exec_ret_nil hs] at h; cases h
  | cons w rest =>
    rw [exec_ret_cons hs] at h
    cases h
    exact ⟨w, rest, rfl, rfl⟩

/-- A completed Dxyn changed the framebuffer, VF and the dirty flag, which it set (R94). -/
theorem exec_drw_inv {x y : Reg} {n : Nat} {s t : State} (h : exec (.drw x y n) s = .next t) :
    ∃ (f : Framebuffer) (b : Bool), t = ((s.setFb f).setV vf (flagByte b)).setDirty true :=
  drawWith_inv (finish_next.1 h)

theorem exec_ldBVx_inv {x : Reg} {s t : State} (h : exec (.ldBVx x) s = .next t) : ∃ m : Memory, t = s.setMem m :=
  storeBytes_inv (finish_next.1 h)

theorem exec_ldMemVx_inv {x : Reg} {s t : State} (h : exec (.ldMemVx x) s = .next t) :
    ∃ m : Memory, t = (s.setMem m).setI (blockEndI x s) := by
  simp only [exec, execLdMemVx] at h
  split at h
  · cases h
  next u hu =>
    obtain ⟨m, rfl⟩ := storeBytes_inv hu
    cases h
    exact ⟨m, rfl⟩

theorem exec_ldVxMem_inv {x : Reg} {s t : State} (h : exec (.ldVxMem x) s = .next t) :
    ∃ bs, loadBytes (x.val + 1) (baseAddress s) s = .ok bs ∧
      t = (s.setRegs (fillRegs bs 0 s.V)).setI (blockEndI x s) := by
  simp only [exec, execLdVxMem] at h
  split at h
  · cases h
  next bs hbs =>
    cases h
    exact ⟨bs, hbs, rfl⟩

theorem exec_skp_inv {x : Reg} {s t : State} (h : exec (.skp x) s = .next t) :
    ∃ k, keyOperand (s.getV x) = .ok k ∧ t = skipIf s.keyCur[k] s := by
  simp only [exec, execSkp] at h
  split at h
  · cases h
  next k hk =>
    cases h
    exact ⟨k, hk, rfl⟩

theorem exec_sknp_inv {x : Reg} {s t : State} (h : exec (.sknp x) s = .next t) :
    ∃ k, keyOperand (s.getV x) = .ok k ∧ t = skipIf (!s.keyCur[k]) s := by
  simp only [exec, execSknp] at h
  split at h
  · cases h
  next k hk =>
    cases h
    exact ⟨k, hk, rfl⟩

/-- Fx0A either found no released key and took `pc` back, or wrote a released key to `V[x]` (R103). -/
theorem exec_ldVxK_inv {x : Reg} {s t : State} (h : exec (.ldVxK x) s = .next t) :
    (releasedKeys s = [] ∧ t = s.setPc (s.pc - 2)) ∨ ∃ k ∈ releasedKeys s, t = s.setV x (BitVec.ofNat 8 k.val) := by
  simp only [exec, execLdVxK] at h
  split at h
  next hk =>
    cases h
    exact .inl ⟨hk, rfl⟩
  next k ks hk =>
    cases h
    exact .inr ⟨keywaitPick k ks, hk ▸ keywaitPick_mem k ks, rfl⟩

/-! ### The timers -/

theorem exec_ldDtVx (x : Reg) (s : State) : exec (.ldDtVx x) s = .next (s.setDt (s.getV x)) := rfl

theorem exec_ldStVx (x : Reg) (s : State) : exec (.ldStVx x) s = .next (s.setSt (s.getV x)) := rfl

theorem skipIf_timers (c : Bool) (s : State) : (skipIf c s).dt = s.dt ∧ (skipIf c s).st = s.st := by
  rw [skipIf_eq]
  exact ⟨rfl, rfl⟩

theorem writeLogic_timers (x : Reg) (b : Byte) (s : State) :
    (writeLogic x b s).dt = s.dt ∧ (writeLogic x b s).st = s.st := by
  rw [writeLogic_eq]
  exact ⟨rfl, rfl⟩

/-- The timers have no writer among the instructions but Fx15 and Fx18 (R19). -/
theorem exec_timers {i : Instr} {s t : State} (h : exec i s = .next t) (hd : ∀ x, i ≠ .ldDtVx x) (hs : ∀ x, i ≠ .ldStVx x) :
    t.dt = s.dt ∧ t.st = s.st := by
  cases i with
  | ldDtVx x => exact absurd rfl (hd x)
  | ldStVx x => exact absurd rfl (hs x)
  | ret =>
    obtain ⟨w, rest, -, rfl⟩ := exec_ret_inv h
    exact ⟨rfl, rfl⟩
  | drw =>
    obtain ⟨f, b, rfl⟩ := exec_drw_inv h
    exact ⟨rfl, rfl⟩
  | ldBVx =>
    obtain ⟨m, rfl⟩ := exec_ldBVx_inv h
    exact ⟨rfl, rfl⟩
  | ldMemVx =>
    obtain ⟨m, rfl⟩ := exec_ldMemVx_inv h
    exact ⟨rfl, rfl⟩
  | ldVxMem =>
    obtain ⟨bs, -, rfl⟩ := exec_ldVxMem_inv h
    exact ⟨rfl, rfl⟩
  | ldVxK =>
    obtain ⟨-, rfl⟩ | ⟨k, -, rfl⟩ := exec_ldVxK_inv h
    · exact ⟨rfl, rfl⟩
    · exact ⟨rfl, rfl⟩
  | skp =>
    obtain ⟨k, -, rfl⟩ := exec_skp_inv h
    exact skipIf_timers _ s
  | sknp =>
    obtain ⟨k, -, rfl⟩ := exec_sknp_inv h
    exact skipIf_timers _ s
  | seVxNn | sneVxNn | seVxVy | sneVxVy =>
    cases h
    exact skipIf_timers _ s
  | orVxVy | andVxVy | xorVxVy =>
    cases h
    exact writeLogic_timers _ _ s
  | cls | jp | call | jpV0Nnn | ldVxNn | addVxNn | ldVxVy | addVxVy | subVxVy | shrVxVy | subnVxVy | shlVxVy | rndVxNn
  | ldINnn | addIVx | ldFVx | ldVxDt =>
    cases h
    exact ⟨rfl, rfl⟩

end Sys2Proof.Machine
end

section
/-! PROOFS. Host transactions (spec 45_host_transactions.md): the timers, the key latches and the display read. -/

namespace Sys2Proof.Machine

/-- Settles O55: the transaction is `countDown` on each timer; an instruction is Fx15, Fx18, or none that writes a timer (R109, R19). -/
theorem timersCountDown : Obligations.TimersCountDown := by
  refine ⟨fun s hs => ⟨_, transact_decrementTimers hs, countDown_toNat s.dt, countDown_toNat s.st, rfl, fun _ => rfl⟩,
    fun i s t h => ?_⟩
  cases i with
  | ldDtVx x =>
    rw [exec_ldDtVx] at h
    cases h
    exact ⟨.inr ⟨x, rfl, rfl⟩, .inl rfl⟩
  | ldStVx x =>
    rw [exec_ldStVx] at h
    cases h
    exact ⟨.inl rfl, .inr ⟨x, rfl, rfl⟩⟩
  | _ => exact (exec_timers h nofun nofun).imp .inl .inl

/-- Settles O56: after the snapshot the two latches are equal, and a key write reads back by key (R110, R111). -/
theorem keyLatchTransactions : Obligations.KeyLatchTransactions := by
  intro s hs
  refine ⟨⟨_, transact_keySnapshot hs, fun _ => rfl, not_fallingEdge_of_keyPrev_eq (keySnapshot_keyPrev s), rfl⟩,
    fun k b => ⟨_, transact_keySet hs k b, ?_, fun j hj => ?_, rfl⟩⟩
  · rw [keySet_keyCur, if_pos rfl]
  · rw [keySet_keyCur, if_neg hj]

/-- Settles O58: the reply is the framebuffer and the dirty flag, the state the one given (R112). -/
theorem displayReadChangesNothing : Obligations.DisplayReadChangesNothing :=
  fun s hs => ⟨s.fb, transact_displayRead hs, fun _ _ => rfl⟩

end Sys2Proof.Machine
end

section
/-! SUPPORT. A word from its leading nibble and the field its sub-decoder selects by (spec 30_encoding.md R47, R48), what each
sub-decoder accepts and rejects (R51, R54), and what a row's mask fixes. -/

namespace Sys2Proof

/-! ### A word from the fields its row fixes -/

theorem formatA_of_opField {w : Word} {op : BitVec 4} (h : opField w = op) : formatA op (nnnField w) = w := by
  rw [← h, formatA_fields]

theorem formatI_of_opField {w : Word} {op : BitVec 4} (h : opField w = op) : formatI op (xField w) (nnField w) = w := by
  rw [← h, formatI_fields]

theorem formatS_of_fields {w : Word} {op : BitVec 4} {nn : Byte} (h : opField w = op) (hn : nnField w = nn) :
    formatI op (xField w) nn = w := by
  rw [← h, ← hn, formatI_fields]

theorem formatR_of_fields {w : Word} {op n : BitVec 4} (h : opField w = op) (hn : nField w = n) :
    formatR op (xField w) (yField w) n = w := by
  rw [← h, ← hn, formatR_fields]

/-! ### What is accepted is the word of the answer -/

theorem decode0_ok {w : Word} {i : Instr} (h : decode0 w = .ok i) : i.WellFormed ∧ encode i = w := by
  unfold decode0 at h
  split at h <;> cases h <;> exact ⟨rfl, rfl⟩

theorem decode5_ok {w : Word} {i : Instr} (ho : opField w = 0x5) (h : decode5 w = .ok i) : i.WellFormed ∧ encode i = w := by
  unfold decode5 at h
  split at h <;> cases h
  exact ⟨rfl, formatR_of_fields ho ‹_›⟩

theorem decode8_ok {w : Word} {i : Instr} (ho : opField w = 0x8) (h : decode8 w = .ok i) : i.WellFormed ∧ encode i = w := by
  unfold decode8 at h
  split at h <;> cases h <;> exact ⟨rfl, formatR_of_fields ho ‹_›⟩

theorem decode9_ok {w : Word} {i : Instr} (ho : opField w = 0x9) (h : decode9 w = .ok i) : i.WellFormed ∧ encode i = w := by
  unfold decode9 at h
  split at h <;> cases h
  exact ⟨rfl, formatR_of_fields ho ‹_›⟩

theorem decodeE_ok {w : Word} {i : Instr} (ho : opField w = 0xE) (h : decodeE w = .ok i) : i.WellFormed ∧ encode i = w := by
  unfold decodeE at h
  split at h <;> cases h <;> exact ⟨rfl, formatS_of_fields ho ‹_›⟩

theorem decodeF_ok {w : Word} {i : Instr} (ho : opField w = 0xF) (h : decodeF w = .ok i) : i.WellFormed ∧ encode i = w := by
  unfold decodeF at h
  split at h <;> cases h <;> exact ⟨rfl, formatS_of_fields ho ‹_›⟩

/-- The row count that leading nibble D decodes to is its trailing nibble, so it fits the encoding (R49). -/
theorem encode_drw_fields {w : Word} (ho : opField w = 0xD) :
    (Instr.drw (xField w) (yField w) (nField w).toNat).WellFormed ∧
      encode (.drw (xField w) (yField w) (nField w).toNat) = w :=
  ⟨decide_eq_true (nField w).isLt, formatR_of_fields ho (BitVec.ofNat_toNat 4 _ ▸ (BitVec.setWidth_eq _).symm)⟩

/-- Past the leading nibbles that `decodeWord` lists there is 0xF only, its last arm (R51). -/
theorem eq_0xF_of_ne (op : BitVec 4) : op ≠ 0x0 → op ≠ 0x1 → op ≠ 0x2 → op ≠ 0x3 → op ≠ 0x4 → op ≠ 0x5 → op ≠ 0x6 →
    op ≠ 0x7 → op ≠ 0x8 → op ≠ 0x9 → op ≠ 0xA → op ≠ 0xB → op ≠ 0xC → op ≠ 0xD → op ≠ 0xE → op = 0xF := by bv_omega

/-! ### What is rejected (R54) -/

theorem decode0_error_iff {w : Word} (ho : opField w = 0x0) :
    decode0 w = .error (.unrecognised w) ↔ nnnField w ≠ 0x0E0 ∧ nnnField w ≠ 0x0EE := by
  unfold decode0
  split
  · simp [nnnField]
  · simp [nnnField]
  next h0 hE =>
    refine iff_of_true rfl ⟨fun h => h0 ?_, fun h => hE ?_⟩
    · rw [← formatA_of_opField ho, h]; rfl
    · rw [← formatA_of_opField ho, h]; rfl

theorem decode5_error_iff {w : Word} : decode5 w = .error (.unrecognised w) ↔ nField w ≠ 0x0 := by
  unfold decode5
  split <;> simp_all

theorem decode8_error_iff {w : Word} :
    decode8 w = .error (.unrecognised w) ↔ nField w ∈ [0x8#4, 0x9#4, 0xA#4, 0xB#4, 0xC#4, 0xD#4, 0xF#4] := by
  have hn : ∀ n : BitVec 4, n ∈ [0x8#4, 0x9#4, 0xA#4, 0xB#4, 0xC#4, 0xD#4, 0xF#4] ↔
      n ∉ [0x0#4, 0x1#4, 0x2#4, 0x3#4, 0x4#4, 0x5#4, 0x6#4, 0x7#4, 0xE#4] := by decide
  rw [hn]
  unfold decode8
  split <;> simp_all

theorem decode9_error_iff {w : Word} : decode9 w = .error (.unrecognised w) ↔ nField w ≠ 0x0 := by
  unfold decode9
  split <;> simp_all

theorem decodeE_error_iff {w : Word} : decodeE w = .error (.unrecognised w) ↔ nnField w ∉ [0x9E#8, 0xA1#8] := by
  unfold decodeE
  split <;> simp_all

theorem decodeF_error_iff {w : Word} :
    decodeF w = .error (.unrecognised w) ↔
      nnField w ∉ [0x07#8, 0x0A#8, 0x15#8, 0x18#8, 0x1E#8, 0x29#8, 0x33#8, 0x55#8, 0x65#8] := by
  unfold decodeF
  split <;> simp_all

/-- A word is an instruction or is rejected as itself (R53). -/
theorem decodeWord_ok_or_unrecognised (w : Word) :
    (∃ i, decodeWord w = .ok i) ∨ decodeWord w = .error (.unrecognised w) := by
  unfold decodeWord decode0 decode5 decode8 decode9 decodeE decodeF
  repeat' split
  all_goals simp

theorem decodeWord_error {w : Word} {e : DecodeError} (h : decodeWord w = .error e) : e = .unrecognised w := by
  obtain ⟨i, hi⟩ | hw := decodeWord_ok_or_unrecognised w
  · rw [hi] at h; cases h
  · rw [hw] at h; cases h; rfl

/-! ### What the masks of the opcode table fix (R51) -/

/-- Every mask keeps the leading nibble. -/
theorem opField_of_accepts {r : OpcodeRow} {w : Word} (hr : r ∈ opcodeTable) (h : w &&& r.mask = r.pattern) :
    opField w = opField r.pattern := by
  have hm : ∀ r ∈ opcodeTable, opField r.mask = BitVec.allOnes 4 := by decide
  rw [← h, opField, opField, BitVec.extractLsb'_and, ← opField, ← opField, hm r hr, BitVec.and_allOnes]

/-- A mask that keeps the trailing nibble. -/
theorem nField_of_accepts {r : OpcodeRow} {w : Word} (hr : nField r.mask = BitVec.allOnes 4) (h : w &&& r.mask = r.pattern) :
    nField w = nField r.pattern := by
  rw [← h, nField, nField, BitVec.extractLsb'_and, ← nField, ← nField, hr, BitVec.and_allOnes]

/-- A mask that keeps the low byte. -/
theorem nnField_of_accepts {r : OpcodeRow} {w : Word} (hr : nnField r.mask = BitVec.allOnes 8) (h : w &&& r.mask = r.pattern) :
    nnField w = nnField r.pattern := by
  rw [← h, nnField, nnField, BitVec.extractLsb'_and, ← nnField, ← nnField, hr, BitVec.and_allOnes]

/-- A mask that keeps the low 12 bits. -/
theorem nnnField_of_accepts {r : OpcodeRow} {w : Word} (hr : nnnField r.mask = BitVec.allOnes 12)
    (h : w &&& r.mask = r.pattern) : nnnField w = nnnField r.pattern := by
  rw [← h, nnnField, nnnField, BitVec.extractLsb'_and, ← nnnField, ← nnnField, hr, BitVec.and_allOnes]

/-- Every instruction's word matches its row: the family `EncodingRow`, gathered. -/
theorem encode_and_mask (i : Instr) : encode i &&& i.row.mask = i.row.pattern := by
  suffices h : Laws.EncodingRow.Statement i from beq_iff_eq.1 h
  cases i with
  | cls => exact Laws.EncodingRow.cls
  | ret => exact Laws.EncodingRow.ret
  | jp nnn => exact Laws.EncodingRow.jp nnn
  | call nnn => exact Laws.EncodingRow.call nnn
  | seVxNn x nn => exact Laws.EncodingRow.seVxNn x nn
  | sneVxNn x nn => exact Laws.EncodingRow.sneVxNn x nn
  | seVxVy x y => exact Laws.EncodingRow.seVxVy x y
  | ldVxNn x nn => exact Laws.EncodingRow.ldVxNn x nn
  | addVxNn x nn => exact Laws.EncodingRow.addVxNn x nn
  | ldVxVy x y => exact Laws.EncodingRow.ldVxVy x y
  | orVxVy x y => exact Laws.EncodingRow.orVxVy x y
  | andVxVy x y => exact Laws.EncodingRow.andVxVy x y
  | xorVxVy x y => exact Laws.EncodingRow.xorVxVy x y
  | addVxVy x y => exact Laws.EncodingRow.addVxVy x y
  | subVxVy x y => exact Laws.EncodingRow.subVxVy x y
  | shrVxVy x y => exact Laws.EncodingRow.shrVxVy x y
  | subnVxVy x y => exact Laws.EncodingRow.subnVxVy x y
  | shlVxVy x y => exact Laws.EncodingRow.shlVxVy x y
  | sneVxVy x y => exact Laws.EncodingRow.sneVxVy x y
  | ldINnn nnn => exact Laws.EncodingRow.ldINnn nnn
  | jpV0Nnn nnn => exact Laws.EncodingRow.jpV0Nnn nnn
  | rndVxNn x nn => exact Laws.EncodingRow.rndVxNn x nn
  | drw x y n => exact Laws.EncodingRow.drw x y n
  | skp x => exact Laws.EncodingRow.skp x
  | sknp x => exact Laws.EncodingRow.sknp x
  | ldVxDt x => exact Laws.EncodingRow.ldVxDt x
  | ldVxK x => exact Laws.EncodingRow.ldVxK x
  | ldDtVx x => exact Laws.EncodingRow.ldDtVx x
  | ldStVx x => exact Laws.EncodingRow.ldStVx x
  | addIVx x => exact Laws.EncodingRow.addIVx x
  | ldFVx x => exact Laws.EncodingRow.ldFVx x
  | ldBVx x => exact Laws.EncodingRow.ldBVx x
  | ldMemVx x => exact Laws.EncodingRow.ldMemVx x
  | ldVxMem x => exact Laws.EncodingRow.ldVxMem x

/-- A word matches one row at most: the table is disjoint. -/
theorem row_eq_of_accepts {r q : OpcodeRow} {w : Word} (hr : r ∈ opcodeTable) (hq : q ∈ opcodeTable)
    (hwr : w &&& r.mask = r.pattern) (hwq : w &&& q.mask = q.pattern) : r = q := by
  by_contra hne
  have hsymm : Std.Symm fun r q : OpcodeRow => r.clash q = true :=
    ⟨fun r q h => by rw [OpcodeRow.clash, BitVec.and_comm q.mask, bne_comm]; exact h⟩
  have hd : r.clash q = true := opcodeTable_disjoint.forall hr hq hne
  have hn := OpcodeRow.not_both hd w (beq_iff_eq.2 hwr)
  exact beq_eq_false_iff_ne.1 hn hwq

end Sys2Proof
end

section
/-! PROOFS. Encoding (spec 30_encoding.md): decoder and encoder inverse to each other, the opcode table, the rejected words. -/

namespace Sys2Proof

/-- Settles O2, by the format of the instruction's word: its fields are the operands, and the leading nibble with the trailing
nibble or the low byte selects the arm (R47, R48, R51). -/
theorem decodeInvertsEncode : Obligations.DecodeInvertsEncode := by
  intro i hi
  cases i with
  | cls | ret => rfl
  | jp | call | ldINnn | jpV0Nnn =>
    simp only [encode, decodeWord, opField_formatA, nnnField_formatA]
    rfl
  | seVxNn | sneVxNn | ldVxNn | addVxNn | rndVxNn =>
    simp only [encode, decodeWord, opField_formatI, xField_formatI, nnField_formatI]
    rfl
  | seVxVy | sneVxVy =>
    simp only [encode, decodeWord, opField_formatR, decode5, decode9, xField_formatR, yField_formatR, nField_formatR]
    rfl
  | ldVxVy | orVxVy | andVxVy | xorVxVy | addVxVy | subVxVy | shrVxVy | subnVxVy | shlVxVy =>
    simp only [encode, decodeWord, opField_formatR, decode8, xField_formatR, yField_formatR, nField_formatR]
    rfl
  | drw x y n =>
    have hn : n < 16 := of_decide_eq_true hi
    have hd := decodeWord_opD (opField_formatR 0xD x y (BitVec.ofNat 4 n))
    rwa [xField_formatR, yField_formatR, nField_formatR, BitVec.toNat_ofNat, Nat.mod_eq_of_lt hn] at hd
  | skp | sknp =>
    simp only [encode, decodeWord, opField_formatI, decodeE, xField_formatI, nnField_formatI]
    rfl
  | ldVxDt | ldVxK | ldDtVx | ldStVx | addIVx | ldFVx | ldBVx | ldMemVx | ldVxMem =>
    simp only [encode, decodeWord, opField_formatI, decodeF, xField_formatI, nnField_formatI]
    rfl

/-- Settles O3, by the arms of the decoder: each answers from the fields of the word, which give the word back (R47, R48, R51). -/
theorem encodeInvertsDecode : Obligations.EncodeInvertsDecode := by
  intro w i h
  unfold decodeWord at h
  split at h
  next ho => exact decode0_ok h
  next ho => cases h; exact ⟨rfl, formatA_of_opField ho⟩
  next ho => cases h; exact ⟨rfl, formatA_of_opField ho⟩
  next ho => cases h; exact ⟨rfl, formatI_of_opField ho⟩
  next ho => cases h; exact ⟨rfl, formatI_of_opField ho⟩
  next ho => exact decode5_ok ho h
  next ho => cases h; exact ⟨rfl, formatI_of_opField ho⟩
  next ho => cases h; exact ⟨rfl, formatI_of_opField ho⟩
  next ho => exact decode8_ok ho h
  next ho => exact decode9_ok ho h
  next ho => cases h; exact ⟨rfl, formatA_of_opField ho⟩
  next ho => cases h; exact ⟨rfl, formatA_of_opField ho⟩
  next ho => cases h; exact ⟨rfl, formatI_of_opField ho⟩
  next ho => cases h; exact encode_drw_fields ho
  next ho => exact decodeE_ok ho h
  next h0 h1 h2 h3 h4 h5 h6 h7 h8 h9 hA hB hC hD hE =>
    exact decodeF_ok (eq_0xF_of_ne _ h0 h1 h2 h3 h4 h5 h6 h7 h8 h9 hA hB hC hD hE) h

/-- Settles O5, by the arms of the decoder: those for a leading nibble outside the six classes reject nothing (R54). -/
theorem unrecognisedWordsAreSixClasses : Obligations.UnrecognisedWordsAreSixClasses := by
  intro w
  unfold decodeWord
  split
  next ho => simp [ho, decode0_error_iff ho]
  next ho => simp [ho]
  next ho => simp [ho]
  next ho => simp [ho]
  next ho => simp [ho]
  next ho => simp [ho, decode5_error_iff]
  next ho => simp [ho]
  next ho => simp [ho]
  next ho => simp [ho, decode8_error_iff]
  next ho => simp [ho, decode9_error_iff]
  next ho => simp [ho]
  next ho => simp [ho]
  next ho => simp [ho]
  next ho => simp [ho]
  next ho => simp [ho, decodeE_error_iff]
  next h0 h1 h2 h3 h4 h5 h6 h7 h8 h9 hA hB hC hD hE =>
    have ho := eq_0xF_of_ne _ h0 h1 h2 h3 h4 h5 h6 h7 h8 h9 hA hB hC hD hE
    simp [ho, decodeF_error_iff]

/-- No word of the six classes matches a row: in each class, the rows with its leading nibble keep the field that the class is
about and fix it to another value (R51, R54). -/
theorem not_accepts_of_unrecognised {w : Word} {r : OpcodeRow} (h : decodeWord w = .error (.unrecognised w))
    (hr : r ∈ opcodeTable) : w &&& r.mask ≠ r.pattern := by
  intro ha
  have ho := opField_of_accepts hr ha
  rcases (unrecognisedWordsAreSixClasses w).1 h with ⟨hop, h0, hE⟩ | ⟨hop, hn⟩ | ⟨hop, hn⟩ | ⟨hop, hn⟩ | ⟨hop, hn⟩ | ⟨hop, hn⟩
  · have hrow : ∀ r ∈ opcodeTable, opField r.pattern = 0x0 →
        nnnField r.mask = BitVec.allOnes 12 ∧ (nnnField r.pattern = 0x0E0 ∨ nnnField r.pattern = 0x0EE) := by decide
    obtain ⟨hm, hp⟩ := hrow r hr (ho ▸ hop)
    rw [← nnnField_of_accepts hm ha] at hp
    exact hp.elim h0 hE
  · have hrow : ∀ r ∈ opcodeTable, opField r.pattern = 0x5 →
        nField r.mask = BitVec.allOnes 4 ∧ nField r.pattern = 0x0 := by decide
    obtain ⟨hm, hp⟩ := hrow r hr (ho ▸ hop)
    exact hn (nField_of_accepts hm ha ▸ hp)
  · have hrow : ∀ r ∈ opcodeTable, opField r.pattern = 0x8 → nField r.mask = BitVec.allOnes 4 ∧
        nField r.pattern ∉ [0x8#4, 0x9#4, 0xA#4, 0xB#4, 0xC#4, 0xD#4, 0xF#4] := by decide
    obtain ⟨hm, hp⟩ := hrow r hr (ho ▸ hop)
    exact hp (nField_of_accepts hm ha ▸ hn)
  · have hrow : ∀ r ∈ opcodeTable, opField r.pattern = 0x9 →
        nField r.mask = BitVec.allOnes 4 ∧ nField r.pattern = 0x0 := by decide
    obtain ⟨hm, hp⟩ := hrow r hr (ho ▸ hop)
    exact hn (nField_of_accepts hm ha ▸ hp)
  · have hrow : ∀ r ∈ opcodeTable, opField r.pattern = 0xE →
        nnField r.mask = BitVec.allOnes 8 ∧ nnField r.pattern ∈ [0x9E#8, 0xA1#8] := by decide
    obtain ⟨hm, hp⟩ := hrow r hr (ho ▸ hop)
    exact hn (nnField_of_accepts hm ha ▸ hp)
  · have hrow : ∀ r ∈ opcodeTable, opField r.pattern = 0xF → nnField r.mask = BitVec.allOnes 8 ∧
        nnField r.pattern ∈ [0x07#8, 0x0A#8, 0x15#8, 0x18#8, 0x1E#8, 0x29#8, 0x33#8, 0x55#8, 0x65#8] := by decide
    obtain ⟨hm, hp⟩ := hrow r hr (ho ▸ hop)
    exact hn (nnField_of_accepts hm ha ▸ hp)

/-- Settles O4: a decoded word is the encoder's, which matches its row; a word that matches a row is not rejected, and the rows
being disjoint, that row is the one it decodes to (R51). -/
theorem decoderFollowsTheOpcodeTable : Obligations.DecoderFollowsTheOpcodeTable := by
  intro w
  have hrow : ∀ i, decodeWord w = .ok i → i.row ∈ opcodeTable ∧ w &&& i.row.mask = i.row.pattern := by
    intro i h
    obtain ⟨-, rfl⟩ := encodeInvertsDecode w i h
    exact ⟨i.row_mem, encode_and_mask i⟩
  refine ⟨hrow, fun r hr ha => ?_⟩
  obtain ⟨i, hi⟩ | hw := decodeWord_ok_or_unrecognised w
  · obtain ⟨hmem, hacc⟩ := hrow i hi
    exact ⟨i, hi, row_eq_of_accepts hmem hr hacc ha⟩
  · exact absurd ha (not_accepts_of_unrecognised hw hr)

/-- Settles O1: the words are literals, so the decoder runs on them. -/
theorem sampleWordsDecode : Obligations.SampleWordsDecode := by
  unfold Obligations.SampleWordsDecode
  decide

end Sys2Proof
end

section
/-! SUPPORT. Which accesses fault (spec 60_exceptions.md R120, R126), memory after a store as `Memory.writeAll`, and each
instruction that can fault, in the case that it does and in the case that it completes. -/

namespace Sys2Proof.Machine

/-! ### The fault of an access -/

theorem accessFault_eq_none {a n : Nat} : accessFault a n = none ↔ n = 0 ∨ a + n ≤ memSize := by
  unfold accessFault memSize
  split <;> simp_all

theorem accessFault_eq_some {a n : Nat} {c : Fault} :
    accessFault a n = some c ↔ n ≠ 0 ∧ memSize < a + n ∧ c = .addressOutOfRange (max a memSize) := by
  unfold accessFault memSize
  split
  next h => exact iff_of_false nofun (by omega)
  next h =>
    rw [Option.some.injEq, eq_comm]
    exact ⟨fun hc => ⟨by omega, by omega, hc⟩, fun ⟨_, _, hc⟩ => hc⟩

theorem keyFault_eq_none {b : Byte} : keyFault b = none ↔ b.toNat < 16 := by
  unfold keyFault
  split <;> simp <;> omega

theorem keyFault_eq_some {b : Byte} {c : Fault} : keyFault b = some c ↔ ¬ b.toNat < 16 ∧ c = .keyIndexOutOfRange b := by
  unfold keyFault
  split
  next h =>
    rw [Option.some.injEq, eq_comm]
    exact ⟨fun hc => ⟨by omega, hc⟩, fun ⟨_, hc⟩ => hc⟩
  next h => exact iff_of_false nofun (by omega)

theorem loadBytes_of_accessFault_none {a n : Nat} (h : accessFault a n = none) (s : State) :
    loadBytes n a s = .ok ((List.range n).map fun k => s.mem.read (a + k)) :=
  loadBytes_ok n a s (accessFault_eq_none.1 h)

theorem loadBytes_of_accessFault_some {a n : Nat} {c : Fault} (h : accessFault a n = some c) (s : State) :
    loadBytes n a s = .error c := by
  obtain ⟨hn, ha, rfl⟩ := accessFault_eq_some.1 h
  exact loadBytes_error n a s hn ha

/-- A store inside memory writes the bytes one after the other (R34, R38). -/
theorem storeBytes_of_accessFault_none {a : Nat} {bs : List Byte} (h : accessFault a bs.length = none) (s : State) :
    storeBytes bs a s = .ok (s.setMem (s.mem.writeAll a bs)) := by
  rw [accessFault_eq_none] at h
  induction bs generalizing a s with
  | nil => rfl
  | cons b bs ih =>
    rw [List.length_cons] at h
    rw [storeBytes, memWrite_ok (by omega)]
    exact ih (by omega) (s.setMem (s.mem.write a b))

theorem storeBytes_of_accessFault_some {a : Nat} {bs : List Byte} {c : Fault} (h : accessFault a bs.length = some c)
    (s : State) : storeBytes bs a s = .error c := by
  obtain ⟨hn, ha, rfl⟩ := accessFault_eq_some.1 h
  exact storeBytes_error bs a s (List.ne_nil_of_length_pos (Nat.pos_of_ne_zero hn)) ha

/-! ### Memory after several writes -/

/-- Writes inside memory keep the canonical form, and each byte reads back, every other as before. -/
theorem Memory.writeAll_spec {m : Memory} (hm : m.wf) {a : Nat} {bs : List Byte} (h : bs = [] ∨ a + bs.length ≤ memSize) :
    (m.writeAll a bs).wf ∧
      ∀ a', (m.writeAll a bs).read a' = if h' : a ≤ a' ∧ a' - a < bs.length then bs[a' - a]'h'.2 else m.read a' := by
  have hs := storeBytes_of_accessFault_none (accessFault_eq_none.2 (h.imp_left (by simp [·]))) (State.reset.setMem m)
  obtain ⟨m', hm', hwf, hread⟩ := storeBytes_ok bs a (State.reset.setMem m) hm h
  rw [hs] at hm'
  obtain rfl : m.writeAll a bs = m' := congrArg State.mem (Except.ok.inj hm')
  exact ⟨hwf, hread⟩

theorem Memory.writeAll_wf {m : Memory} (hm : m.wf) {a : Nat} {bs : List Byte} (h : bs = [] ∨ a + bs.length ≤ memSize) :
    (m.writeAll a bs).wf :=
  (Memory.writeAll_spec hm h).1

/-- A written byte reads back. -/
theorem Memory.read_writeAll_add {m : Memory} (hm : m.wf) {a k : Nat} {bs : List Byte} (h : a + bs.length ≤ memSize)
    (hk : k < bs.length) : (m.writeAll a bs).read (a + k) = bs[k] := by
  rw [(Memory.writeAll_spec hm (.inr h)).2, dif_pos ⟨by omega, by omega⟩]
  simp only [Nat.add_sub_cancel_left]

/-- A byte outside the written block reads as before. -/
theorem Memory.read_writeAll_outside {m : Memory} (hm : m.wf) {a a' : Nat} {bs : List Byte} (h : a + bs.length ≤ memSize)
    (ha : a' < a ∨ a + bs.length ≤ a') : (m.writeAll a bs).read a' = m.read a' := by
  rw [(Memory.writeAll_spec hm (.inr h)).2, dif_neg (by omega)]

/-- The read depends on the memory component only. -/
theorem memRead_congr {s t : State} {a : Nat} (h : t.mem.read a = s.mem.read a) : memRead a t = memRead a s := by
  rw [memRead, memRead, h]

/-! ### The instructions that can fault -/

/-- The bytes of the sprite at `I` (R95). -/
def spriteBytes (n : Nat) (s : State) : List Byte := (List.range n).map fun k => s.mem.read (s.I.toNat + k)

/-- The canvas Dxyn leaves: the sprite drawn on the framebuffer from `V[x]`, `V[y]` (R94). -/
def drawnCanvas (x y : Reg) (n : Nat) (s : State) : Canvas :=
  drawRows (spriteBytes n s) ((s.getV y).toNat % drawYMod) ((s.getV x).toNat % drawXMod) ⟨s.fb, false⟩

theorem exec_drw_ok {x y : Reg} {n : Nat} {s : State} (h : accessFault s.I.toNat n = none) :
    exec (.drw x y n) s =
      .next (((s.setFb (drawnCanvas x y n s).fb).setV vf (flagByte (drawnCanvas x y n s).hit)).setDirty true) := by
  simp only [exec, execDrw, drawWith_ok drawYMod x y n s (accessFault_eq_none.1 h)]
  rfl

theorem exec_drw_fault {x y : Reg} {n : Nat} {s : State} {c : Fault} (h : accessFault s.I.toNat n = some c) :
    exec (.drw x y n) s = .fault c := by
  simp only [exec, execDrw, finish_fault, drawWith, baseAddress, loadBytes_of_accessFault_some h]

theorem exec_ldBVx_ok {x : Reg} {s : State} (h : accessFault s.I.toNat 3 = none) :
    exec (.ldBVx x) s = .next (s.setMem (s.mem.writeAll s.I.toNat (decimalDigits (s.getV x)))) := by
  simp only [exec, execLdBVx, finish_next, baseAddress]
  exact storeBytes_of_accessFault_none h s

theorem exec_ldBVx_fault {x : Reg} {s : State} {c : Fault} (h : accessFault s.I.toNat 3 = some c) :
    exec (.ldBVx x) s = .fault c := by
  simp only [exec, execLdBVx, finish_fault, baseAddress]
  exact storeBytes_of_accessFault_some h s

theorem exec_ldMemVx_ok {x : Reg} {s : State} (h : accessFault s.I.toNat (x.val + 1) = none) :
    exec (.ldMemVx x) s = .next ((s.setMem (s.mem.writeAll s.I.toNat (regsUpTo x s))).setI (blockEndI x s)) := by
  rw [← regsUpTo_length x s] at h
  simp only [exec, execLdMemVx, baseAddress, storeBytes_of_accessFault_none h]

theorem exec_ldMemVx_fault {x : Reg} {s : State} {c : Fault} (h : accessFault s.I.toNat (x.val + 1) = some c) :
    exec (.ldMemVx x) s = .fault c := by
  rw [← regsUpTo_length x s] at h
  simp only [exec, execLdMemVx, baseAddress, storeBytes_of_accessFault_some h, raise]

/-- The bytes Fx65 loads: as many as registers, from `I` up (R90). -/
def blockBytes (x : Reg) (s : State) : List Byte := (List.range (x.val + 1)).map fun k => s.mem.read (s.I.toNat + k)

theorem exec_ldVxMem_ok {x : Reg} {s : State} (h : accessFault s.I.toNat (x.val + 1) = none) :
    exec (.ldVxMem x) s = .next ((s.setRegs (fillRegs (blockBytes x s) 0 s.V)).setI (blockEndI x s)) := by
  simp only [exec, execLdVxMem, baseAddress, loadBytes_of_accessFault_none h]
  rfl

theorem exec_ldVxMem_fault {x : Reg} {s : State} {c : Fault} (h : accessFault s.I.toNat (x.val + 1) = some c) :
    exec (.ldVxMem x) s = .fault c := by
  simp only [exec, execLdVxMem, baseAddress, loadBytes_of_accessFault_some h, raise]

theorem exec_skp_ok {x : Reg} {s : State} {k : Key} (h : keyOperand (s.getV x) = .ok k) :
    exec (.skp x) s = .next (skipIf s.keyCur[k] s) := by
  simp only [exec, execSkp, h]

theorem exec_sknp_ok {x : Reg} {s : State} {k : Key} (h : keyOperand (s.getV x) = .ok k) :
    exec (.sknp x) s = .next (skipIf (!s.keyCur[k]) s) := by
  simp only [exec, execSknp, h]

theorem exec_skp_fault {x : Reg} {s : State} (h : ¬ (s.getV x).toNat < 16) :
    exec (.skp x) s = .fault (.keyIndexOutOfRange (s.getV x)) := by
  simp only [exec, execSkp, keyOperand_error h, raise]

theorem exec_sknp_fault {x : Reg} {s : State} (h : ¬ (s.getV x).toNat < 16) :
    exec (.sknp x) s = .fault (.keyIndexOutOfRange (s.getV x)) := by
  simp only [exec, execSknp, keyOperand_error h, raise]

theorem exec_ldVxK_nil {x : Reg} {s : State} (h : releasedKeys s = []) : exec (.ldVxK x) s = .next (s.setPc (s.pc - 2)) := by
  simp only [exec, execLdVxK, h]

theorem exec_ldVxK_cons {x : Reg} {s : State} {k : Key} {ks : List Key} (h : releasedKeys s = k :: ks) :
    exec (.ldVxK x) s = .next (s.setV x (BitVec.ofNat 8 (keywaitPick k ks).val)) := by
  simp only [exec, execLdVxK, h]

/-! ### The fault table (R118) -/

/-- The fault the table gives is the one the instruction raises. -/
theorem exec_of_faultOf_some {i : Instr} {s : State} {c : Fault} (h : faultOf i s = some c) : exec i s = .fault c := by
  cases i with
  | ret =>
    cases hs : s.stack with
    | nil =>
      simp only [faultOf, hs, List.isEmpty_nil, if_true, Option.some.injEq] at h
      rw [exec_ret_nil hs, h]
    | cons w rest => simp [faultOf, hs] at h
  | drw x y n => exact exec_drw_fault h
  | ldBVx x => exact exec_ldBVx_fault h
  | ldMemVx x => exact exec_ldMemVx_fault h
  | ldVxMem x => exact exec_ldVxMem_fault h
  | skp x =>
    obtain ⟨hk, rfl⟩ := keyFault_eq_some.1 h
    exact exec_skp_fault hk
  | sknp x =>
    obtain ⟨hk, rfl⟩ := keyFault_eq_some.1 h
    exact exec_sknp_fault hk
  | _ => cases h

/-- An instruction to which the table gives no fault completes. -/
theorem exec_of_faultOf_none {i : Instr} {s : State} (h : faultOf i s = none) : ∃ t, exec i s = .next t := by
  cases i with
  | ret =>
    cases hs : s.stack with
    | nil => simp [faultOf, hs] at h
    | cons w rest => exact ⟨_, exec_ret_cons hs⟩
  | drw x y n => exact ⟨_, exec_drw_ok h⟩
  | ldBVx x => exact ⟨_, exec_ldBVx_ok h⟩
  | ldMemVx x => exact ⟨_, exec_ldMemVx_ok h⟩
  | ldVxMem x => exact ⟨_, exec_ldVxMem_ok h⟩
  | skp x => exact ⟨_, exec_skp_ok (keyOperand_ok (keyFault_eq_none.1 h))⟩
  | sknp x => exact ⟨_, exec_sknp_ok (keyOperand_ok (keyFault_eq_none.1 h))⟩
  | ldVxK x =>
    cases hk : releasedKeys s with
    | nil => exact ⟨_, exec_ldVxK_nil hk⟩
    | cons k ks => exact ⟨_, exec_ldVxK_cons hk⟩
  | _ => exact ⟨_, rfl⟩

/-- An instruction that completed had no fault in the table. -/
theorem faultOf_eq_none_of_next {i : Instr} {s t : State} (h : exec i s = .next t) : faultOf i s = none := by
  cases hf : faultOf i s with
  | none => rfl
  | some c => rw [exec_of_faultOf_some hf] at h; cases h

end Sys2Proof.Machine
end

section
/-! SUPPORT. The Step and the transactions by the status of the core, and the word placed for the next fetch (spec 30_encoding.md
R50, 60_exceptions.md R124). -/

namespace Sys2Proof.Machine

theorem step_faulted {s : State} {c : Fault} (hs : s.status = .faulted c) : step s = .fault c := by
  simp only [step, hs, raise]

theorem transact_faulted {s : State} {c : Fault} (hs : s.status = .faulted c) (tr : Transaction) :
    transact tr s = transactFaulted c tr s := by
  rw [transact, hs]

/-- On a faulted core a new Construct is the only transaction with a successor (R124, R125). -/
theorem transact_faulted_next {s : State} {c : Fault} {tr : Transaction} {u : State × Reply} (hs : s.status = .faulted c)
    (h : transact tr s = .next u) : ∃ v, tr = .construct v ∧ u = (reconstruct v s, .silent) := by
  rw [transact_faulted hs] at h
  cases tr with
  | construct v => cases h; exact ⟨v, rfl, rfl⟩
  | _ => cases h

/-- The Step transaction of a running core, by how the Step ends (R124). -/
theorem transact_step_next {s t : State} (hs : s.status = .running) (h : step s = .next t) :
    transact .step s = .next (t, s.stepReply) := by
  simp only [transact_running hs, transactRunning, transactStep, h]

theorem transact_step_fault {s : State} {c : Fault} (hs : s.status = .running) (h : step s = .fault c) :
    transact .step s = .next (s.halted c, .silent) := by
  simp only [transact_running hs, transactRunning, transactStep, h]

/-! ### The diagnostic of a Step (R114) -/

theorem fetch_of_fetchesBytes {s : State} {hi lo : Byte} (h : FetchesBytes s hi lo) : fetch s = .ok (hi, lo) := by
  obtain ⟨hhi, hlo⟩ := h
  simp only [fetch, hhi, hlo]

theorem stepDiag_of_decodeWord_ok {s : State} {hi lo : Byte} {i : Instr} (hs : s.status = .running) (h : FetchesBytes s hi lo)
    (hd : decodeWord (hi ++ lo) = .ok i) : s.stepDiag = none := by
  simp only [State.stepDiag, hs, fetch_of_fetchesBytes h, assembleWord, hd]

theorem stepDiag_of_decodeWord_error {s : State} {hi lo : Byte} {e : DecodeError} (hs : s.status = .running)
    (h : FetchesBytes s hi lo) (hd : decodeWord (hi ++ lo) = .error e) :
    s.stepDiag = some (.unrecognisedOpcode (hi ++ lo) s.pc) := by
  simp only [State.stepDiag, hs, fetch_of_fetchesBytes h, assembleWord, hd]

/-! ### The placed word -/

/-- A word fits at the slot of the next fetch (log entry 26). -/
theorem fetchSlot_lt (s : State) : fetchSlot s + 1 < memSize := by
  unfold fetchSlot
  split
  · assumption
  · decide

theorem withFetchWord_pc (s : State) (w : Word) : (s.withFetchWord 16 w.toNat).pc.toNat = fetchSlot s := by
  have hslot := fetchSlot_lt s
  unfold memSize at hslot
  exact Nat.mod_eq_of_lt (by omega)

theorem withFetchWord_mem (s : State) (w : Word) :
    (s.withFetchWord 16 w.toNat).mem =
      (s.mem.write (fetchSlot s) (highByte w)).write (fetchSlot s + 1) (lowByte w) := by
  have hw : BitVec.ofNat 16 (w.toNat % 2 ^ 16) = w := by
    rw [Nat.mod_eq_of_lt w.isLt, BitVec.ofNat_toNat, BitVec.setWidth_eq]
  simp only [State.withFetchWord, hw]

/-- The placed word is the one the next Step fetches. -/
theorem withFetchWord_fetchesWord {s : State} (hm : s.mem.wf) (w : Word) : FetchesWord (s.withFetchWord 16 w.toNat) w := by
  have hslot := fetchSlot_lt s
  have hm' : (s.mem.write (fetchSlot s) (highByte w)).wf := Memory.write_wf hm (by omega) _
  refine ⟨highByte w, lowByte w, fetchesBytes_iff.2 ?_, (assembleWord_bytes w).symm⟩
  rw [withFetchWord_pc, withFetchWord_mem, Memory.read_write hm', Memory.read_write hm', Memory.read_write hm]
  exact ⟨hslot, by simp, by simp⟩

end Sys2Proof.Machine
end

section
/-! PROOFS. The Step (spec 30_encoding.md R46, R50) and its faults (60_exceptions.md). -/

namespace Sys2Proof.Machine

/-- Settles O6 (R46, R50). -/
theorem stepRunsDecodedInstruction : Obligations.StepRunsDecodedInstruction := by
  intro s hi lo i hs hb hd _
  exact ⟨step_fetchesWord hs ⟨hi, lo, hb, rfl⟩ hd, stepDiag_of_decodeWord_ok hs hb hd⟩

/-- Settles O7 (R53, R114). -/
theorem unrecognisedWordIsLoggedNoOp : Obligations.UnrecognisedWordIsLoggedNoOp := by
  intro s hi lo e hs hb hd
  refine ⟨?_, stepDiag_of_decodeWord_error hs hb hd⟩
  rw [step_fetchesBytes hs hb, runWord, assembleWord, hd]
  rfl

/-- Settles O8: the placed word is fetched, and decodes to the instruction (R46, R50). -/
theorem stepRunsPlacedWord : Obligations.StepRunsPlacedWord := by
  intro s i hm hi
  exact step_fetchesWord rfl (withFetchWord_fetchesWord hm (encode i)) (decodeInvertsEncode i hi)

/-- Settles O9, by whether the word at `pc` ends inside memory (R35, R46, R120). -/
theorem fetchFaultsAbove0xFFE : Obligations.FetchFaultsAbove0xFFE := by
  intro s hs
  refine ⟨fun h => ⟨_, _, fetchesBytes_iff.2 ⟨?_, rfl, rfl⟩⟩, fun h => ?_⟩
  · unfold memSize; omega
  · rw [step_fetch_fault hs (by unfold memSize; omega)]
    congr 2
    unfold memSize
    split <;> omega

/-- Settles O10 (R124). -/
theorem faultedCoreHasNoSuccessor : Obligations.FaultedCoreHasNoSuccessor :=
  fun _ _ hs => ⟨step_faulted hs, transact_faulted hs .step⟩

/-- Settles O13, by whether the table gives the instruction a fault: it then raises that one, else it completes (R118, R120,
R121). -/
theorem instructionFaultsAreTheTable : Obligations.InstructionFaultsAreTheTable := by
  intro i s
  cases hf : faultOf i s with
  | none =>
    obtain ⟨t, ht⟩ := exec_of_faultOf_none hf
    simp [ht]
  | some c => simp [exec_of_faultOf_some hf]

/-- Settles O11: a rejected word completes, and an instruction faults as O13 says (R118, R120, R126). -/
theorem stepFaultsExactlyByTheTable : Obligations.StepFaultsExactlyByTheTable := by
  intro s hi lo c hs hb
  rw [step_fetchesBytes hs hb, runWord, assembleWord]
  cases hd : decodeWord (hi ++ lo) with
  | error e => simp
  | ok i =>
    obtain ⟨hfault, -⟩ := instructionFaultsAreTheTable i s.advanced
    simp only [Except.ok.injEq, exists_eq_left']
    exact hfault c

/-- Settles O12: the core a faulting Step leaves is `State.halted` (R124, R125). -/
theorem faultingStepHaltsForGood : Obligations.FaultingStepHaltsForGood := by
  intro s c hs h
  have hc : (s.halted c).status = .faulted c := State.halted_status s c
  refine ⟨s.halted c, transact_step_fault hs h, hc, step_faulted hc, fun tr u hu => ?_⟩
  obtain ⟨v, rfl, -⟩ := transact_faulted_next hc hu
  exact ⟨v, rfl⟩

end Sys2Proof.Machine
end

section
/-! SUPPORT. The two outcomes of a skip, and the `I` of a block transfer on SuperChip (spec 40_control.md R68, 42_index_memory.md
R89). -/

namespace Sys2Proof.Machine

theorem skipIf_cases (c : Bool) (s : State) : skipIf c s = s ∨ skipIf c s = s.setPc (s.pc + 2) := by
  cases c
  · exact .inl rfl
  · exact .inr rfl

theorem blockEndI_superChip {s : State} (x : Reg) (h : s.variant = .superChip) : blockEndI x s = s.I := by
  rw [blockEndI, h]; rfl

end Sys2Proof.Machine
end

section
/-! PROOFS. The frame of every instruction: which components and which registers each may write (spec 10_state.md R10, R12). -/

namespace Sys2Proof.Machine

/-- Settles O20, by what the completed instruction did: one write of the components its row of R10 names. -/
theorem componentsWrittenOnlyByTheirInstructions : Obligations.ComponentsWrittenOnlyByTheirInstructions := by
  intro i s t h
  cases i with
  | ldVxNn | addVxNn | ldVxVy | addVxVy | subVxVy | shrVxVy | subnVxVy | shlVxVy | ldVxDt | rndVxNn =>
    cases h
    simp [SameMemory, SameDisplay, writeWithFlag, rndWith]
  | orVxVy | andVxVy | xorVxVy =>
    cases h
    unfold writeLogic
    split <;> simp [SameMemory, SameDisplay]
  | cls | jp | call | jpV0Nnn | ldINnn | addIVx | ldFVx | ldDtVx | ldStVx =>
    cases h
    simp [SameMemory, SameDisplay]
  | ret =>
    obtain ⟨w, rest, -, rfl⟩ := exec_ret_inv h
    simp [SameMemory, SameDisplay]
  | seVxNn | sneVxNn | seVxVy | sneVxVy =>
    cases h
    obtain ht | ht := skipIf_cases _ s <;> rw [ht] <;> simp [SameMemory, SameDisplay]
  | skp =>
    obtain ⟨k, -, rfl⟩ := exec_skp_inv h
    obtain ht | ht := skipIf_cases _ s <;> rw [ht] <;> simp [SameMemory, SameDisplay]
  | sknp =>
    obtain ⟨k, -, rfl⟩ := exec_sknp_inv h
    obtain ht | ht := skipIf_cases _ s <;> rw [ht] <;> simp [SameMemory, SameDisplay]
  | drw =>
    obtain ⟨f, b, rfl⟩ := exec_drw_inv h
    simp [SameMemory, SameDisplay]
  | ldBVx =>
    obtain ⟨m, rfl⟩ := exec_ldBVx_inv h
    simp [SameMemory, SameDisplay]
  | ldMemVx x =>
    obtain ⟨m, rfl⟩ := exec_ldMemVx_inv h
    simpa [SameMemory, SameDisplay] using blockEndI_superChip x
  | ldVxMem x =>
    obtain ⟨bs, -, rfl⟩ := exec_ldVxMem_inv h
    simpa [SameMemory, SameDisplay] using blockEndI_superChip x
  | ldVxK =>
    obtain ⟨-, rfl⟩ | ⟨k, -, rfl⟩ := exec_ldVxK_inv h <;> simp [SameMemory, SameDisplay]

/-! ### The frame by component -/

section
variable {i : Instr} {s t : State} (h : exec i s = .next t)
include h

theorem exec_mem (hB : ∀ x, i ≠ .ldBVx x) (hM : ∀ x, i ≠ .ldMemVx x) : t.mem = s.mem := by
  obtain ⟨hmem, -⟩ := componentsWrittenOnlyByTheirInstructions i s t h
  exact (hmem hB hM).1

theorem exec_dirty (hc : i ≠ .cls) (hd : ∀ x y n, i ≠ .drw x y n) : t.dirty = s.dirty := by
  obtain ⟨-, hdisp, -⟩ := componentsWrittenOnlyByTheirInstructions i s t h
  exact (hdisp hc hd).2

theorem exec_st (hs : ∀ x, i ≠ .ldStVx x) : t.st = s.st := by
  obtain ⟨-, -, -, -, hst, -⟩ := componentsWrittenOnlyByTheirInstructions i s t h
  exact hst hs

theorem exec_stack (hc : ∀ nnn, i ≠ .call nnn) (hr : i ≠ .ret) : t.stack = s.stack := by
  obtain ⟨-, -, hstack, -⟩ := componentsWrittenOnlyByTheirInstructions i s t h
  exact hstack hc hr

theorem exec_pc (hr : i ≠ .ret) (hj : ∀ nnn, i ≠ .jp nnn) (hc : ∀ nnn, i ≠ .call nnn) (hb : ∀ nnn, i ≠ .jpV0Nnn nnn)
    (hk : ∀ x, i ≠ .ldVxK x) : t.pc = s.pc ∨ t.pc = s.pc + 2 := by
  obtain ⟨-, -, -, -, -, -, hpc, -⟩ := componentsWrittenOnlyByTheirInstructions i s t h
  exact (hpc hr hj hc hb hk).imp_right And.left

/-- The components that only the host writes, and the status, which only a fault does (R20 to R23). -/
theorem exec_hostState :
    t.keyCur = s.keyCur ∧ t.keyPrev = s.keyPrev ∧ t.loaded = s.loaded ∧ t.variant = s.variant ∧ t.status = s.status := by
  obtain ⟨-, -, -, -, -, -, -, -, -, hhost⟩ := componentsWrittenOnlyByTheirInstructions i s t h
  exact hhost

end

/-! ### The registers -/

theorem logicResetsVF_iff (v : Variant) : v.logicResetsVF = true ↔ v = .original := by
  cases v <;> decide

/-- A block load of `x + 1` bytes from register 0 up: register `r` up to `x` receives the byte at `I + r`, and those above keep
theirs (R90). -/
theorem fillRegs_blockBytes (x : Reg) (s : State) (r : Reg) :
    (fillRegs (blockBytes x s) 0 s.V)[r] = if r ≤ x then s.mem.read (s.I.toNat + r.val) else s.getV r := by
  rw [Fin.getElem_fin, fillRegs_getElem, if_pos (Nat.zero_le _), Nat.sub_zero, List.getD_eq_getElem?_getD]
  by_cases hr : r ≤ x
  · have hlt : r.val < x.val + 1 := Nat.lt_succ_of_le hr
    simp [blockBytes, hr, hlt]
  · have hge : ¬ r.val < x.val + 1 := fun h => hr (Nat.le_of_lt_succ h)
    simp [blockBytes, hr, hge, State.getV]

/-- Settles O21: an instruction that writes registers does it by one of the shared writes, each of which says which it changes. -/
theorem registersWrittenOnlyByTheirInstructions : Obligations.RegistersWrittenOnlyByTheirInstructions := by
  intro i s t h r hr
  cases i with
  | ldVxNn | addVxNn | ldVxVy | ldVxDt | rndVxNn =>
    cases h
    exact State.getV_setV_other s _ (by simpa [writesReg] using hr)
  | orVxVy | andVxVy | xorVxVy =>
    cases h
    simp only [writesReg, Bool.or_eq_false_iff, beq_eq_false_iff_ne, Bool.and_eq_false_iff] at hr
    obtain ⟨hx, hvf⟩ := hr
    rw [writeLogic_getV, if_neg (by rw [logicResetsVF_iff]; tauto), if_neg hx]
  | addVxVy | subVxVy | shrVxVy | subnVxVy | shlVxVy =>
    cases h
    simp only [writesReg, Bool.or_eq_false_iff, beq_eq_false_iff_ne] at hr
    rw [writeWithFlag_getV, if_neg hr.2, if_neg hr.1]
  | drw =>
    obtain ⟨f, b, rfl⟩ := exec_drw_inv h
    exact State.getV_setV_other _ _ (by simpa [writesReg] using hr)
  | ldVxK =>
    obtain ⟨-, rfl⟩ | ⟨k, -, rfl⟩ := exec_ldVxK_inv h
    · rfl
    · exact State.getV_setV_other s _ (by simpa [writesReg] using hr)
  | ldVxMem x =>
    rw [exec_ldVxMem_ok (faultOf_eq_none_of_next h)] at h
    cases h
    have hx : ¬ r ≤ x := of_decide_eq_false hr
    exact (fillRegs_blockBytes x s r).trans (if_neg hx)
  | _ =>
    have hV : t.V = s.V := by
      obtain ⟨-, -, -, -, -, -, -, hV, -⟩ := componentsWrittenOnlyByTheirInstructions _ s t h
      simpa using hV
    rw [State.getV, hV, State.getV]

end Sys2Proof.Machine
end

section
/-! PROOFS. The invariant (spec 10_state.md R13, R15, R16), and what a Step can change (R27, R18). -/

namespace Sys2Proof.Machine

/-! ### One instruction -/

/-- Memory stays canonical: the only two writers store inside memory. -/
theorem exec_keeps_wf {i : Instr} {s t : State} (hm : s.mem.wf) (h : exec i s = .next t) : t.mem.wf := by
  cases i with
  | ldBVx x =>
    have hf : accessFault s.I.toNat 3 = none := faultOf_eq_none_of_next h
    rw [exec_ldBVx_ok hf] at h
    cases h
    exact Memory.writeAll_wf hm (.inr ((accessFault_eq_none.1 hf).resolve_left (by decide)))
  | ldMemVx x =>
    have hf : accessFault s.I.toNat (x.val + 1) = none := faultOf_eq_none_of_next h
    rw [exec_ldMemVx_ok hf] at h
    cases h
    refine Memory.writeAll_wf hm (.inr ?_)
    rw [regsUpTo_length]
    exact (accessFault_eq_none.1 hf).resolve_left (Nat.succ_ne_zero _)
  | _ => exact exec_mem h nofun nofun ▸ hm

/-- Return addresses stay at most 0x1000: a call pushes the advanced `pc`. -/
theorem exec_keeps_stack_le {i : Instr} {s t : State} (hpc : s.pc.toNat ≤ 0x1000) (hst : ∀ w ∈ s.stack, w.toNat ≤ 0x1000)
    (h : exec i s = .next t) : ∀ w ∈ t.stack, w.toNat ≤ 0x1000 := by
  cases i with
  | call nnn =>
    cases h
    exact List.forall_mem_cons.2 ⟨hpc, hst⟩
  | ret =>
    obtain ⟨w, rest, hs, rfl⟩ := exec_ret_inv h
    rw [hs] at hst
    exact (List.forall_mem_cons.1 hst).2
  | _ => exact exec_stack h nofun nofun ▸ hst

/-- The sum of Bnnn does not wrap (R67). -/
theorem jumpTarget_toNat (nnn : Imm12) (b : Byte) : (zextImm nnn + zextByte b).toNat = nnn.toNat + b.toNat := by
  have hn := nnn.isLt
  have hb := b.isLt
  rw [BitVec.toNat_add, zextImm_toNat, zextByte, BitVec.toNat_setWidth_of_le (by decide)]
  omega

/-- From an advanced `pc` inside memory, `pc` ends at most 0x10FE: the farthest target is that of Bnnn. -/
theorem exec_keeps_pc_le {i : Instr} {s t : State} (hpc2 : 2 ≤ s.pc.toNat) (hpc : s.pc.toNat ≤ 0x1000)
    (hst : ∀ w ∈ s.stack, w.toNat ≤ 0x1000) (h : exec i s = .next t) : t.pc.toNat ≤ 0x10FE := by
  cases i with
  | ret =>
    obtain ⟨w, rest, hs, rfl⟩ := exec_ret_inv h
    have hw : w.toNat ≤ 0x1000 := hst w (hs ▸ List.mem_cons_self)
    exact hw.trans (by decide)
  | jp nnn | call nnn =>
    cases h
    rw [State.setPc_pc, zextImm_toNat]
    omega
  | jpV0Nnn nnn =>
    cases h
    rw [State.setPc_pc, jumpTarget_toNat]
    omega
  | ldVxK x =>
    obtain ⟨-, rfl⟩ | ⟨k, -, rfl⟩ := exec_ldVxK_inv h
    · rw [State.setPc_pc]
      bv_omega
    · exact hpc.trans (by decide)
  | _ =>
    obtain ht | ht := exec_pc h nofun nofun nofun nofun nofun <;> rw [ht] <;> bv_omega

/-! ### One Step -/

/-- No Step is refused: no instruction is (R124). -/
theorem step_ne_refused (s : State) (q : Refusal) : step s ≠ .refused q := by
  cases hs : s.status with
  | faulted c => rw [step_faulted hs]; nofun
  | running =>
    by_cases hp : s.pc.toNat + 1 < memSize
    · rw [step_running hs hp, runWord]
      split
      next i _ =>
        obtain ⟨-, -, hr⟩ := instructionFaultsAreTheTable i s.advanced
        exact hr q
      · nofun
    · rw [step_fetch_fault hs hp]; nofun

/-- Settles O14: the fetch leaves `pc` at most 0x1000, and from there every instruction keeps each of the three bounds. -/
theorem stepKeepsInvariant : Obligations.StepKeepsInvariant := by
  intro s t hinv h
  obtain ⟨hm, -, hst⟩ := hinv
  obtain ⟨-, hp, hstep⟩ := step_next_inv h
  unfold memSize at hp
  have hpc : s.advanced.pc.toNat = s.pc.toNat + 2 := by
    rw [State.advanced_pc]
    bv_omega
  obtain ⟨e, -, rfl⟩ | ⟨i, -, hi⟩ := hstep
  · exact ⟨hm, by omega, hst⟩
  · exact ⟨exec_keeps_wf (s := s.advanced) hm hi, exec_keeps_pc_le (s := s.advanced) (by omega) (by omega) hst hi,
      exec_keeps_stack_le (s := s.advanced) (by omega) hst hi⟩

/-- Settles O18: neither the fetch nor an instruction writes them (R27, R22, R23). -/
theorem stepNeverWritesHostState : Obligations.StepNeverWritesHostState := by
  intro s t h
  obtain ⟨hs, -, ⟨e, -, rfl⟩ | ⟨i, -, hi⟩⟩ := step_next_inv h
  · exact ⟨rfl, rfl, rfl, rfl, hs⟩
  · obtain ⟨hcur, hprev, hload, hvar, hstat⟩ := exec_hostState hi
    exact ⟨hcur, hprev, hload, hvar, hstat.trans hs⟩

/-- Settles O19: the Step clears `dirty` first, the two display instructions set it, and no other instruction writes it (R18,
R96). -/
theorem dirtyTellsDisplayInstruction : Obligations.DirtyTellsDisplayInstruction := by
  intro s t w ⟨hi, lo, hb, hw⟩ h
  subst hw
  obtain ⟨hs, -⟩ := step_next_inv h
  rw [step_fetchesBytes hs hb, runWord, assembleWord] at h
  cases hd : decodeWord (hi ++ lo) with
  | error e =>
    rw [hd] at h
    cases h
    simp
  | ok i =>
    rw [hd] at h
    cases i with
    | cls =>
      cases h
      simp
    | drw x y n =>
      obtain ⟨f, b, rfl⟩ := exec_drw_inv h
      simp
    | _ => simp [exec_dirty h nofun nofun]

/-! ### The host's transactions -/

/-- Settles O15. -/
theorem constructMeetsInvariant : Obligations.ConstructMeetsInvariant := by
  have hinv : ∀ v : Variant, (State.construct v).Inv := fun v =>
    ⟨Memory.nil_wf, (by decide : (0x0200 : Word).toNat ≤ 0x10FE), fun _ hw => absurd hw List.not_mem_nil⟩
  exact ⟨hinv .original, hinv⟩

/-- Settles O16: a Step keeps the invariant by O14, a load writes inside memory, a fresh core meets it, and the rest change no
component that it speaks of (R106). -/
theorem transactionsKeepInvariant : Obligations.TransactionsKeepInvariant := by
  intro tr s t r hinv h ht
  cases hs : s.status with
  | faulted c =>
    obtain ⟨v, -, hu⟩ := transact_faulted_next hs h
    cases hu
    exact constructMeetsInvariant.2 v
  | running =>
    cases tr with
    | construct v =>
      rw [transact_running hs] at h
      cases h
      exact constructMeetsInvariant.2 v
    | loadRom bytes =>
      obtain ⟨hm, hpc, hst⟩ := hinv
      rw [transact_running hs, transactRunning, transactLoadRom] at h
      split at h
      · cases h
        exact ⟨hm, hpc, hst⟩
      split at h
      next hlen =>
        cases h
        refine ⟨Memory.writeAll_wf hm (.inr ?_), hpc, hst⟩
        unfold romMax memSize progStart at *
        omega
      · cases h
    | step =>
      cases hstep : step s with
      | next u =>
        rw [transact_step_next hs hstep] at h
        cases h
        exact stepKeepsInvariant s t hinv hstep
      | fault c =>
        rw [transact_step_fault hs hstep] at h
        cases h
        cases ht
      | refused q => exact absurd hstep (step_ne_refused s q)
    | decrementTimers | keySnapshot | keySet | displayRead | observeTimers =>
      rw [transact_running hs] at h
      cases h
      exact hinv

end Sys2Proof.Machine
end

section
/-! PROOFS. What no instruction observes (spec 00_scope.md R5, 10_state.md R25). -/

namespace Sys2Proof.Machine

/-- The state with another variant and other values of the three components of R25 that no instruction reads. -/
def State.withUnobserved (s : State) (v : Variant) (b : Byte) (d l : Bool) : State :=
  { s with variant := v, st := b, dirty := d, loaded := l }

@[simp] theorem State.withUnobserved_variant (s : State) (v : Variant) (b : Byte) (d l : Bool) :
    (s.withUnobserved v b d l).variant = v := rfl

theorem skipIf_withUnobserved (c : Bool) (s : State) (v : Variant) (b : Byte) (d l : Bool) :
    skipIf c (s.withUnobserved v b d l) = (skipIf c s).withUnobserved v b d l := by
  cases c <;> rfl

theorem writeLogic_withUnobserved (x : Reg) (r : Byte) (s : State) (b : Byte) (d l : Bool) :
    writeLogic x r (s.withUnobserved s.variant b d l) = (writeLogic x r s).withUnobserved s.variant b d l := by
  unfold writeLogic
  rw [State.withUnobserved_variant]
  split <;> rfl

/-- An instruction that writes neither `st` nor `dirty` runs on such a state as it does on the given one, if it does not consult
the variant or the variant is the same. -/
theorem exec_withUnobserved {i : Instr} {s t : State} {v : Variant} (b : Byte) (d l : Bool)
    (hv : consultsVariant i = true → v = s.variant) (hc : i ≠ .cls) (hd : ∀ x y n, i ≠ .drw x y n)
    (hst : ∀ x, i ≠ .ldStVx x) (h : exec i s = .next t) :
    exec i (s.withUnobserved v b d l) = .next (t.withUnobserved v b d l) := by
  cases i with
  | cls => exact absurd rfl hc
  | drw x y n => exact absurd rfl (hd x y n)
  | ldStVx x => exact absurd rfl (hst x)
  | ret =>
    obtain ⟨w, rest, hs, rfl⟩ := exec_ret_inv h
    exact exec_ret_cons hs
  | seVxNn | sneVxNn | seVxVy | sneVxVy =>
    cases h
    exact congrArg _ (skipIf_withUnobserved ..)
  | skp x =>
    obtain ⟨k, hk, rfl⟩ := exec_skp_inv h
    rw [← skipIf_withUnobserved]
    exact exec_skp_ok hk
  | sknp x =>
    obtain ⟨k, hk, rfl⟩ := exec_sknp_inv h
    rw [← skipIf_withUnobserved]
    exact exec_sknp_ok hk
  | orVxVy | andVxVy | xorVxVy =>
    obtain rfl := hv rfl
    cases h
    exact congrArg _ (writeLogic_withUnobserved ..)
  | shrVxVy | shlVxVy | jpV0Nnn =>
    obtain rfl := hv rfl
    cases h
    rfl
  | ldBVx x =>
    have hf := faultOf_eq_none_of_next h
    rw [exec_ldBVx_ok hf] at h
    cases h
    exact exec_ldBVx_ok hf
  | ldMemVx x =>
    obtain rfl := hv rfl
    have hf := faultOf_eq_none_of_next h
    rw [exec_ldMemVx_ok hf] at h
    cases h
    exact exec_ldMemVx_ok hf
  | ldVxMem x =>
    obtain rfl := hv rfl
    have hf := faultOf_eq_none_of_next h
    rw [exec_ldVxMem_ok hf] at h
    cases h
    exact exec_ldVxMem_ok hf
  | ldVxK x =>
    cases hk : releasedKeys s with
    | nil =>
      rw [exec_ldVxK_nil hk] at h
      cases h
      exact exec_ldVxK_nil hk
    | cons k ks =>
      rw [exec_ldVxK_cons hk] at h
      cases h
      exact exec_ldVxK_cons hk
  | _ =>
    cases h
    rfl

/-- The fault table reads none of them. -/
theorem faultOf_withUnobserved (i : Instr) (s : State) (v : Variant) (b : Byte) (d l : Bool) :
    faultOf i (s.withUnobserved v b d l) = faultOf i s := by
  cases i <;> rfl

/-- Settles O22: a completed run by `exec_withUnobserved`, or by the writes of the three display and sound instructions; a fault
by the fault table (R5). -/
theorem variantReachesOnlySixFamilies : Obligations.VariantReachesOnlySixFamilies := by
  intro i s v hv
  refine ⟨fun t h => ?_, fun c h => ?_⟩
  · cases i with
    | cls | ldStVx =>
      cases h
      rfl
    | drw x y n =>
      have hf := faultOf_eq_none_of_next h
      rw [exec_drw_ok hf] at h
      cases h
      exact exec_drw_ok hf
    | _ =>
      obtain ⟨-, -, hload, -⟩ := exec_hostState h
      have ht : t.withUnobserved v s.st s.dirty s.loaded = { t with variant := v } := by
        rw [← exec_st h nofun, ← exec_dirty h nofun nofun, ← hload]
        rfl
      rw [← ht]
      exact exec_withUnobserved s.st s.dirty s.loaded (fun hc => nomatch hv.symm.trans hc) nofun nofun nofun h
  · obtain ⟨hfault, -⟩ := instructionFaultsAreTheTable i s
    exact exec_of_faultOf_some ((faultOf_withUnobserved i s v s.st s.dirty s.loaded).trans ((hfault c).1 h))

/-- Settles O23: by `exec_withUnobserved`, or by the writes of the three instructions that write `dirty` or `st` (R25). -/
theorem soundTimerAndHostFlagsUnobserved : Obligations.SoundTimerAndHostFlagsUnobserved := by
  intro i s t b d l h
  cases i with
  | cls | ldStVx =>
    cases h
    exact ⟨_, rfl, rfl⟩
  | drw x y n =>
    have hf := faultOf_eq_none_of_next h
    rw [exec_drw_ok hf] at h
    cases h
    exact ⟨_, exec_drw_ok (s := s.withUnobserved s.variant b d l) hf, rfl⟩
  | _ =>
    obtain ⟨-, -, -, hvar, -⟩ := exec_hostState h
    refine ⟨_, exec_withUnobserved b d l (fun _ => rfl) nofun nofun nofun h, ?_⟩
    rw [← hvar]
    rfl

end Sys2Proof.Machine
end

section
/-! SUPPORT. The results of the flag instructions as the numbers of spec 41_alu.md, and the frame of a write with a flag. -/

namespace Sys2Proof.Machine

/-! ### Flags -/

theorem flagByte_decide (p : Prop) [Decidable p] : flagByte (decide p) = if p then 1 else 0 := by
  by_cases h : p <;> simp [flagByte, h]

theorem shrFlag_eq (b : Byte) : shrFlag b = decide (b.toNat % 2 = 1) := by
  rw [shrFlag, BitVec.getLsbD, Nat.testBit_zero]

theorem shlFlag_eq (b : Byte) : shlFlag b = decide (b.toNat ≥ 128) := BitVec.msb_eq_decide b

/-- An instruction that ends in `writeWithFlag` (R70). -/
theorem flagResult_writeWithFlag (x : Reg) (result : Byte) (flag : Bool) (s : State) :
    FlagResult s (writeWithFlag x result flag s) x result (flagByte flag) := by
  refine ⟨?_, fun hx => ?_, fun r hrx hrf => ?_, rfl, fun _ => rfl, fun _ _ => rfl, rfl⟩
  · rw [writeWithFlag_getV, if_pos rfl]
  · rw [writeWithFlag_getV, if_neg hx, if_pos rfl]
  · rw [writeWithFlag_getV, if_neg hrf, if_neg hrx]

/-- An instruction that ends in `writeLogic` (R70, R74). -/
theorem logicResult_writeLogic (x : Reg) (result : Byte) (s : State) : LogicResult s (writeLogic x result s) x result := by
  have hv := logicResetsVF_iff s.variant
  by_cases h : s.variant = .original
  · rw [LogicResult, if_pos h, writeLogic, if_pos (hv.2 h)]
    exact flagResult_writeWithFlag x result false s
  · rw [LogicResult, if_neg h, writeLogic, if_neg fun hr => h (hv.1 hr)]
    exact ⟨State.getV_setV_same s x result, setV_frame s x result⟩

/-! ### Results -/

theorem add_eq_ofNat (a b : Byte) : a + b = BitVec.ofNat 8 ((a.toNat + b.toNat) % 256) := by
  apply BitVec.eq_of_toNat_eq
  rw [BitVec.toNat_add, BitVec.toNat_ofNat]
  omega

theorem sub_eq_ofNat (a b : Byte) : a - b = BitVec.ofNat 8 ((a.toNat + 256 - b.toNat) % 256) := by
  apply BitVec.eq_of_toNat_eq
  rw [BitVec.toNat_sub, BitVec.toNat_ofNat]
  omega

theorem ushiftRight_eq_ofNat (a : Byte) : a >>> 1 = BitVec.ofNat 8 (a.toNat / 2) := by
  apply BitVec.eq_of_toNat_eq
  rw [BitVec.toNat_ushiftRight, BitVec.toNat_ofNat, Nat.shiftRight_eq_div_pow]
  omega

theorem shiftLeft_eq_ofNat (a : Byte) : a <<< 1 = BitVec.ofNat 8 (a.toNat * 2 % 256) := by
  apply BitVec.eq_of_toNat_eq
  rw [BitVec.toNat_shiftLeft, BitVec.toNat_ofNat, Nat.shiftLeft_eq]
  omega

theorem shiftOperand_toNat (x y : Reg) (s : State) :
    (shiftOperand x y s).toNat = if s.variant = .superChip then (s.getV x).toNat else (s.getV y).toNat := by
  unfold shiftOperand
  cases s.variant <;> rfl

end Sys2Proof.Machine
end

section
/-! PROOFS. Registers and arithmetic (spec 41_alu.md): the instructions with a flag, and the random byte. -/

namespace Sys2Proof.Machine

/-- Settles O35: each of the three ends in `writeLogic` (R74, R75, R76). -/
theorem logicResults : Obligations.LogicResults := fun x _ s =>
  ⟨⟨_, rfl, logicResult_writeLogic x _ s⟩, ⟨_, rfl, logicResult_writeLogic x _ s⟩, ⟨_, rfl, logicResult_writeLogic x _ s⟩⟩

/-- Settles O36 (R77). -/
theorem addSetsCarry : Obligations.AddSetsCarry := by
  intro x y s
  rw [← add_eq_ofNat, ← flagByte_decide]
  exact ⟨_, rfl, flagResult_writeWithFlag x _ _ s⟩

/-- Settles O37 (R78, R80). -/
theorem subtractionsSetNotBorrow : Obligations.SubtractionsSetNotBorrow := by
  intro x y s
  rw [← sub_eq_ofNat, ← sub_eq_ofNat, ← flagByte_decide, ← flagByte_decide]
  exact ⟨⟨_, rfl, flagResult_writeWithFlag x _ _ s⟩, ⟨_, rfl, flagResult_writeWithFlag x _ _ s⟩⟩

/-- Settles O38: both shift the operand that the variant selects (R79, R81). -/
theorem shiftsMoveOneBit : Obligations.ShiftsMoveOneBit := by
  intro x y s
  rw [← shiftOperand_toNat]
  simp only [← ushiftRight_eq_ofNat, ← shiftLeft_eq_ofNat, ← flagByte_decide, ← shrFlag_eq, ← shlFlag_eq]
  exact ⟨⟨_, rfl, flagResult_writeWithFlag x _ _ s⟩, ⟨_, rfl, flagResult_writeWithFlag x _ _ s⟩⟩

/-- Settles O39: the byte is masked, so no bit outside the mask is set (R82, R115). -/
theorem randomByteIsMasked : Obligations.RandomByteIsMasked := by
  intro x nn s
  have hx : ((rndWith s.drawnByte x nn s).setDraws (s.draws + 1)).getV x = s.drawnByte &&& nn := State.getV_setV_same s x _
  refine ⟨_, rfl, ⟨_, rfl, hx⟩, ?_, ?_, fun r hr => State.getV_setV_other s _ hr, rfl, rfl, fun _ => rfl, fun _ _ => rfl, rfl⟩
  · rw [hx, BitVec.and_assoc, BitVec.and_not_self]
    exact BitVec.and_zero
  · rintro rfl
    exact hx.trans BitVec.and_zero

end Sys2Proof.Machine
end

section
/-! SUPPORT. The one form of a memory (spec 10_state.md R16), the contents after construction (20_memory.md R31, R32), and the
blocks that Fx55 stores and Fx65 loads (42_index_memory.md R89, R90). -/

namespace Sys2Proof.Machine

/-! ### Memory as a canonical list -/

theorem Memory.read_of_mem {m : Memory} (hm : m.Pairwise (fun p q => p.1 < q.1)) {p : Host.Cell} (hp : p ∈ m) :
    m.read p.1 = p.2 := by
  induction m with
  | nil => cases hp
  | cons q m ih =>
    rw [List.pairwise_cons] at hm
    obtain ⟨hq, hm⟩ := hm
    rcases List.mem_cons.1 hp with rfl | hp
    · exact if_pos rfl
    · exact (if_neg (Nat.ne_of_lt (hq p hp))).trans (ih hm hp)

/-- A canonical memory lists exactly the bytes that differ from their contents after construction (R16). -/
theorem Memory.mem_iff {m : Memory} (hm : m.wf) (p : Host.Cell) : p ∈ m ↔ m.read p.1 = p.2 ∧ p.2 ≠ initialByte p.1 := by
  refine ⟨fun hp => ⟨Memory.read_of_mem hm.1 hp, (hm.2 p hp).2⟩, fun ⟨hr, hne⟩ => ?_⟩
  by_contra hp
  refine hne (hr ▸ Memory.read_of_forall_ne fun q hq hqp => hp ?_)
  have hq2 : q.2 = p.2 := by rw [← Memory.read_of_mem hm.1 hq, hqp, hr]
  rwa [← Prod.ext hqp hq2]

/-! ### Contents after construction -/

theorem initialByte_font (i : Fin 80) : initialByte (fontBase + i.val) = fontByte i := by
  have hb := fontBase_le
  unfold initialByte progStart
  rw [if_neg (by omega), dif_pos ⟨by omega, by omega⟩]
  simp only [Nat.add_sub_cancel_left]

theorem initialByte_outside_font {a : Nat} (h : a < fontBase ∨ fontBase + 80 ≤ a) : initialByte a = 0 := by
  unfold initialByte
  split
  · rfl
  · rw [dif_neg (by omega)]

/-! ### Blocks -/

theorem accessFault_block {s : State} {x : Reg} : accessFault s.I.toNat (x.val + 1) = none ↔ s.I.toNat + x.val ≤ 0xFFF := by
  rw [accessFault_eq_none]
  unfold memSize
  omega

theorem accessFault_block_some {s : State} {x : Reg} (h : 0xFFF < s.I.toNat + x.val) :
    accessFault s.I.toNat (x.val + 1) = some (.addressOutOfRange (max s.I.toNat 0x1000)) :=
  accessFault_eq_some.2 ⟨Nat.succ_ne_zero _, by unfold memSize; omega, rfl⟩

theorem blockEndI_toNat {s : State} {x : Reg} (h : s.I.toNat + x.val ≤ 0xFFF) :
    (blockEndI x s).toNat = if s.variant = .superChip then s.I.toNat else s.I.toNat + x.val + 1 := by
  have hadd : (s.I + BitVec.ofNat 16 (x.val + 1)).toNat = s.I.toNat + x.val + 1 := by
    rw [BitVec.toNat_add, BitVec.toNat_ofNat]
    omega
  unfold blockEndI
  cases s.variant with
  | superChip => rfl
  | original | extended => exact hadd

/-- A stored register reads back at its place in the block (R89). -/
theorem read_writeAll_regsUpTo {s : State} (hm : s.mem.wf) {x k : Reg} (h : s.I.toNat + x.val ≤ 0xFFF) (hk : k ≤ x) :
    (s.mem.writeAll s.I.toNat (regsUpTo x s)).read (s.I.toNat + k.val) = s.getV k := by
  have hlen := regsUpTo_length x s
  have hlt : k.val < (regsUpTo x s).length := hlen ▸ Nat.lt_succ_of_le hk
  rw [Memory.read_writeAll_add hm (by unfold memSize; omega) hlt, regsUpTo_getElem]
  rfl

end Sys2Proof.Machine
end

section
/-! PROOFS. Index register and memory (spec 42_index_memory.md), and memory after construction (20_memory.md). -/

namespace Sys2Proof.Machine

/-- Settles O24: both lists rise, and have the same members, those that the reads give (R16, R30). -/
theorem memoryCanonicalFormIsUnique : Obligations.MemoryCanonicalFormIsUnique := by
  intro m m' hm hm' hread
  have hirr : Std.Irrefl fun p q : Host.Cell => p.1 < q.1 := ⟨fun p => Nat.lt_irrefl p.1⟩
  refine List.Pairwise.eq_of_mem_iff hm.1 hm'.1 fun p => ?_
  rw [Memory.mem_iff hm, Memory.mem_iff hm', hread]

/-- Settles O41 (R86). -/
theorem addToIndexWraps : Obligations.AddToIndexWraps := by
  intro x s
  refine ⟨_, rfl, ?_, setI_frame s _⟩
  rw [State.setI_I, BitVec.toNat_add, zextByte, BitVec.toNat_setWidth_of_le (by decide)]

/-- Settles O42: the digits are stored as three bytes from `I` up (R88). -/
theorem bcdStoresThreeDigits : Obligations.BcdStoresThreeDigits := by
  intro x s hm
  refine ⟨fun h => ?_, fun h => exec_ldBVx_fault (accessFault_eq_some.2 ⟨by decide, by unfold memSize; omega, rfl⟩)⟩
  have hin : s.I.toNat + (decimalDigits (s.getV x)).length ≤ memSize := by
    rw [decimalDigits_length]; unfold memSize; omega
  have hdigit : ∀ k (hk : k < 3), memRead (s.I.toNat + k) (s.setMem (s.mem.writeAll s.I.toNat (decimalDigits (s.getV x)))) =
      .ok (decimalDigits (s.getV x))[k] := fun k hk =>
    memRead_eq_ok.2 ⟨by unfold memSize; omega, Memory.read_writeAll_add hm hin hk⟩
  refine ⟨_, exec_ldBVx_ok (accessFault_eq_none.2 (.inr hin)), hdigit 0 (by decide), hdigit 1 (by decide),
    hdigit 2 (by decide), fun a ha => ?_, rfl⟩
  exact memRead_congr (Memory.read_writeAll_outside hm hin ha)

/-- Settles O43 (R89). -/
theorem blockStoreWritesRegisters : Obligations.BlockStoreWritesRegisters := by
  intro x s hm
  refine ⟨fun h => ?_, fun h => exec_ldMemVx_fault (accessFault_block_some h)⟩
  refine ⟨_, exec_ldMemVx_ok (accessFault_block.2 h), fun k hk => ?_, fun a ha => ?_, blockEndI_toNat h, rfl⟩
  · have hkx : k.val ≤ x.val := hk
    exact memRead_eq_ok.2 ⟨by unfold memSize; omega, read_writeAll_regsUpTo hm h hk⟩
  · have hlen := regsUpTo_length x s
    exact memRead_congr (Memory.read_writeAll_outside hm (by unfold memSize; omega) (by omega))

/-- Settles O44 (R90). -/
theorem blockLoadReadsRegisters : Obligations.BlockLoadReadsRegisters := by
  intro x s
  refine ⟨fun h => ?_, fun h => exec_ldVxMem_fault (accessFault_block_some h)⟩
  refine ⟨_, exec_ldVxMem_ok (accessFault_block.2 h), fun k hk => ?_, fun k hk => ?_, blockEndI_toNat h, rfl, fun _ => rfl⟩
  · have hkx : k.val ≤ x.val := hk
    rw [memRead_ok (by unfold memSize; omega)]
    exact congrArg _ ((fillRegs_blockBytes x s k).trans (if_pos hk))
  · exact (fillRegs_blockBytes x s k).trans (if_neg (not_le_of_gt hk))

/-- Settles O45: the load reads the block that the store wrote (R89, R90). -/
theorem blockStoreThenLoad : Obligations.BlockStoreThenLoad := by
  intro x s t v hm h
  have hf : accessFault s.I.toNat (x.val + 1) = none := faultOf_eq_none_of_next h
  rw [exec_ldMemVx_ok hf] at h
  cases h
  refine ⟨_, exec_ldVxMem_ok hf, fun k hk => ?_⟩
  exact (fillRegs_blockBytes x _ k).trans ((if_pos hk).trans (read_writeAll_regsUpTo hm (accessFault_block.1 hf) hk))

/-- Settles O46: the fetch at `pc` reads the two stored bytes (R42, R39). -/
theorem storedWordIsFetchedNext : Obligations.StoredWordIsFetchedNext := by
  intro x k j s t i hm hs h hj hjx hpc hd _
  have hf : accessFault s.I.toNat (x.val + 1) = none := faultOf_eq_none_of_next h
  have hin := accessFault_block.1 hf
  have hjx' : j.val ≤ x.val := hjx
  have hkx : k ≤ x := Fin.le_def.2 (by omega)
  rw [exec_ldMemVx_ok hf] at h
  cases h
  refine step_fetchesWord hs ⟨s.getV k, s.getV j, fetchesBytes_iff.2 ⟨?_, ?_, ?_⟩, rfl⟩ hd
  · simp only [State.setI_pc, State.setMem_pc]
    unfold memSize
    omega
  · simp only [State.setI_pc, State.setMem_pc, State.setI_mem, State.setMem_mem, hpc]
    exact read_writeAll_regsUpTo hm hin hkx
  · simp only [State.setI_pc, State.setMem_pc, State.setI_mem, State.setMem_mem, hpc, Nat.add_assoc, ← hj]
    exact read_writeAll_regsUpTo hm hin hjx

/-- Settles O47: `I` is the address of the glyph in the font table of the construction (R32, R87). -/
theorem fontGlyphsAtReset : Obligations.FontGlyphsAtReset := by
  intro v x d j s t hmem hd h
  cases h
  have hI : (glyphAddress (s.getV x)).toNat = fontBase + 5 * d.val := by
    rw [glyphAddress_toNat, hd, Nat.mod_eq_of_lt d.isLt]
  have hb := fontBase_le
  rw [State.setI_memRead, State.setI_I, hI, Nat.add_assoc]
  refine memRead_eq_ok.2 ⟨by unfold memSize; omega, ?_⟩
  rw [hmem]
  exact initialByte_font ⟨5 * d.val + j.val, by omega⟩

/-- Settles O17: a fresh core's memory is the empty list, so each byte reads as its contents after construction (R26, R135). -/
theorem constructResetsEveryComponent : Obligations.ConstructResetsEveryComponent := by
  refine ⟨rfl, fun v s => ?_⟩
  have ht : transact (.construct v) s = .next (reconstruct v s, .silent) := by
    cases hs : s.status with
    | running => exact transact_running hs _
    | faulted c => exact transact_faulted hs _
  have hb := fontBase_le
  refine ⟨_, ht, fun r => ?_, rfl, rfl, rfl, rfl, rfl, fun k => ?_, blank_getElem, rfl, rfl, rfl, rfl, fun i => ?_,
    fun a ha hout => ?_, by omega⟩
  · simp [State.getV, reconstruct, State.construct]
  · simp [reconstruct, State.construct]
  · exact memRead_eq_ok.2 ⟨by unfold memSize; omega, initialByte_font i⟩
  · exact memRead_eq_ok.2 ⟨ha, initialByte_outside_font hout⟩

/-- Settles O57: the load writes the bytes as one block from 0x200 up (R107). -/
theorem loadRomWritesProgram : Obligations.LoadRomWritesProgram := by
  intro bytes s hs hm
  rw [transact_running hs, transactRunning, transactLoadRom]
  refine ⟨fun hl hlen => ?_, fun hl => if_pos hl⟩
  have hin : progStart + bytes.length ≤ memSize := by unfold progStart memSize; omega
  have hlen' : bytes.length ≤ romMax := hlen
  refine ⟨loadRom bytes s, ?_, fun k hk => ?_, fun a ha => ?_, rfl, rfl⟩
  · rw [if_neg (by simp [hl]), if_pos hlen']
  · exact memRead_eq_ok.2 ⟨by unfold memSize; omega, Memory.read_writeAll_add hm hin hk⟩
  · exact memRead_congr (Memory.read_writeAll_outside hm hin ha)

end Sys2Proof.Machine
end

section
/-! SUPPORT. The call in a bounded build, the offset of Bnnn, the key instructions by key, and the finished core (spec
40_control.md, 44_timer_input.md, 70_reset_and_hazards.md R138). -/

namespace Sys2Proof.Machine

/-! ### Call and jump with offset -/

theorem exec_call (nnn : Imm12) (s : State) :
    exec (.call nnn) s = .next ((s.setStack (s.pc :: s.stack)).setPc (zextImm nnn)) := execCall_eq nnn s

theorem callWith_some_ok {n : Nat} {nnn : Imm12} {s : State} (h : s.stack.length < n) :
    callWith (some n) nnn s = .ok ((s.setStack (s.pc :: s.stack)).setPc (zextImm nnn)) := by
  simp only [callWith, pushReturn_some, if_pos h]

theorem callWith_some_full {n : Nat} {nnn : Imm12} {s : State} (h : n ≤ s.stack.length) :
    callWith (some n) nnn s = .error .stackOverflow := by
  simp only [callWith, pushReturn_some, if_neg (Nat.not_lt.2 h)]

theorem exec_jpV0Nnn (nnn : Imm12) (s : State) :
    exec (.jpV0Nnn nnn) s = .next (s.setPc (zextImm nnn + zextByte (s.getV (jumpOffsetReg nnn s)))) := rfl

theorem jumpOffsetReg_of_ne_superChip {s : State} (h : s.variant ≠ .superChip) (nnn : Imm12) : jumpOffsetReg nnn s = 0 := by
  unfold jumpOffsetReg
  cases hv : s.variant with
  | superChip => exact absurd hv h
  | original | extended => rfl

/-- On SuperChip the register is the top nibble of `nnn` (R67). -/
theorem jumpOffsetReg_superChip {s : State} (h : s.variant = .superChip) (nnn : Imm12) :
    (jumpOffsetReg nnn s).val = nnn.toNat / 256 := by
  have hn := nnn.isLt
  have hu : Variant.superChip.jumpUsesVx = true := rfl
  rw [jumpOffsetReg, h, if_pos hu, BitVec.val_toFin, BitVec.extractLsb'_toNat, Nat.shiftRight_eq_div_pow]
  omega

/-! ### Keys -/

theorem keyOperand_of_toNat {b : Byte} {k : Key} (h : b.toNat = k.val) : keyOperand b = .ok k := by
  have hlt : b.toNat < 16 := h ▸ k.isLt
  rw [keyOperand_ok hlt]
  exact congrArg _ (Fin.ext h)

/-- No key is released exactly when no key has a falling edge (R103). -/
theorem releasedKeys_eq_nil {s : State} :
    releasedKeys s = [] ↔ ∀ k : Key, ¬ (s.keyPrev[k] = true ∧ s.keyCur[k] = false) := by
  simp only [List.eq_nil_iff_forall_not_mem, mem_releasedKeys]

/-! ### The finished core -/

/-- A Step of a finished core jumps to where it is (R138, R61). -/
theorem step_of_finished {s : State} (h : s.Finished) : step s = .next { s with dirty := false } := by
  obtain ⟨hs, nnn, hw, hpc⟩ := h
  have hz : zextImm nnn = s.pc := BitVec.eq_of_toNat_eq ((zextImm_toNat nnn).trans hpc.symm)
  rw [step_fetchesWord hs hw (decodeWord_formatA_jp nnn), exec_jp, hz]
  rfl

/-- Being finished depends on `status`, `mem` and `pc` only. -/
theorem State.Finished.congr {s t : State} (h : s.Finished) (hst : t.status = s.status) (hm : t.mem = s.mem) (hpc : t.pc = s.pc) :
    t.Finished := by
  unfold State.Finished FetchesWord at *
  simp only [fetchesBytes_iff, hst, hm, hpc] at *
  exact h

theorem safeFor_of_finished {s : State} (h : s.Finished) (k : Nat) : SafeFor k s := by
  induction k generalizing s with
  | zero => trivial
  | succ k ih => exact ⟨_, step_of_finished h, ih (h.congr rfl rfl rfl)⟩

theorem finishesIn_of_finished {s : State} (h : s.Finished) (k : Nat) : FinishesIn k s := by
  induction k generalizing s with
  | zero => exact h
  | succ k ih => exact ⟨_, step_of_finished h, ih (h.congr rfl rfl rfl)⟩

theorem transact_step_of_finished {s : State} (h : s.Finished) :
    transact .step s = .next ({ s with dirty := false }, .silent) := by
  have hstep := step_of_finished h
  obtain ⟨hs, nnn, ⟨hi, lo, hb, hw⟩, -⟩ := h
  have hd := stepDiag_of_decodeWord_ok hs hb (hw ▸ decodeWord_formatA_jp nnn)
  rw [transact_step_next hs hstep, State.stepReply, hd]

/-! ### Steps back to back -/

theorem run_succ_of_next {M : Host.Core} {k : Nat} {s t : M.State} (h : M.step s = .next t) : M.run (k + 1) s = M.run k t := by
  rw [Host.Core.run, h]

end Sys2Proof.Machine
end

section
/-! PROOFS. Control transfer (spec 40_control.md) and the end of a run (70_reset_and_hazards.md). -/

namespace Sys2Proof.Machine

/-- Settles O27 (R62, R122). -/
theorem callPushesReturnAddress : Obligations.CallPushesReturnAddress := by
  intro nnn s
  exact ⟨decodeInvertsEncode (.call nnn) rfl,
    ⟨_, exec_call nnn s, rfl, zextImm_toNat nnn, rfl, fun _ => rfl, fun n hn => callWith_some_ok hn⟩,
    fun n hn => callWith_some_full hn⟩

/-- Settles O30, by the register that the variant selects (R67). -/
theorem jumpWithOffset : Obligations.JumpWithOffset := by
  intro nnn s
  refine ⟨_, exec_jpV0Nnn nnn s, rfl, fun _ => rfl, fun hv => ?_, fun x hv hx => ?_⟩
  · rw [State.setPc_pc, jumpTarget_toNat, jumpOffsetReg_of_ne_superChip hv]
  · rw [State.setPc_pc, jumpTarget_toNat, Fin.ext ((jumpOffsetReg_superChip hv nnn).trans hx.symm)]

/-- Settles O31: such a core is finished (R138, R61). -/
theorem selfJumpIsStable : Obligations.SelfJumpIsStable := by
  intro s nnn hs hw hpc
  have h : s.Finished := ⟨hs, nnn, hw, hpc⟩
  exact ⟨step_of_finished h, safeFor_of_finished h⟩

/-- Settles O32, by induction on the number of Steps: one Step pushes and leaves `pc` and the word there as they are (R62, R15).
-/
theorem callToSelfGrowsStack : Obligations.CallToSelfGrowsStack := by
  intro s nnn k
  induction k generalizing s with
  | zero => exact fun _ _ _ => ⟨s, rfl, rfl, rfl⟩
  | succ k ih =>
    intro hs hw hpc
    have hz : zextImm nnn = s.pc := BitVec.eq_of_toNat_eq ((zextImm_toNat nnn).trans hpc.symm)
    have hstep := step_fetchesWord hs hw (decodeInvertsEncode (.call nnn) rfl)
    rw [exec_call, hz] at hstep
    obtain ⟨t, hrun, hstack, htpc⟩ := ih ((s.advanced.setStack (s.advanced.pc :: s.advanced.stack)).setPc s.pc) hs hw hpc
    refine ⟨t, (run_succ_of_next (M := Sys2Proof.core) hstep).trans hrun, ?_, htpc⟩
    rw [hstack, List.replicate_succ', List.append_assoc]
    rfl

/-- Settles O33: the call pushes the advanced `pc`, and the return at its target takes it back (R60, R62, R69). -/
theorem callAndReturnInTwoSteps : Obligations.CallAndReturnInTwoSteps := by
  intro s nnn hs hw hhi hlo
  have hcall := step_fetchesWord hs hw (decodeInvertsEncode (.call nnn) rfl)
  rw [exec_call] at hcall
  have hb : FetchesWord ((s.advanced.setStack (s.advanced.pc :: s.advanced.stack)).setPc (zextImm nnn)) 0x00EE := by
    refine ⟨0x00, 0xEE, ⟨?_, ?_⟩, rfl⟩ <;> rw [State.setPc_pc, zextImm_toNat]
    · exact hhi
    · exact hlo
  have hret := step_fetchesWord (by exact hs) hb (decodeInvertsEncode .ret rfl)
  rw [exec_ret_cons (rest := s.stack) rfl] at hret
  exact (run_succ_of_next (M := Sys2Proof.core) hcall).trans (run_succ_of_next (M := Sys2Proof.core) hret)

/-- Settles O59: a transaction other than a Construct and a first load leaves `status`, `mem` and `pc` as they are (R138, R106).
-/
theorem finishedCoreStaysFinished : Obligations.FinishedCoreStaysFinished := by
  intro s h
  refine ⟨fun tr hc hl => ?_, transact_step_of_finished h, finishesIn_of_finished h⟩
  have hs : s.status = .running := h.1
  cases tr with
  | construct v => exact absurd rfl (hc v)
  | loadRom bytes =>
    have hload : s.loaded = true := hl.resolve_right fun hn => hn bytes rfl
    refine ⟨s, .diagnostic .romAlreadyLoaded, ?_, h, rfl⟩
    rw [transact_running hs, transactRunning, transactLoadRom, if_pos hload]
  | step => exact ⟨_, _, transact_step_of_finished h, h.congr rfl rfl rfl, rfl⟩
  | decrementTimers => exact ⟨_, _, transact_decrementTimers hs, h.congr rfl rfl rfl, rfl⟩
  | keySnapshot => exact ⟨_, _, transact_keySnapshot hs, h.congr rfl rfl rfl, rfl⟩
  | keySet k b => exact ⟨_, _, transact_keySet hs k b, h.congr rfl rfl rfl, rfl⟩
  | displayRead => exact ⟨_, _, transact_displayRead hs, h, rfl⟩
  | observeTimers => exact ⟨_, _, transact_running hs _, h, rfl⟩

end Sys2Proof.Machine
end

section
/-! PROOFS. Timer and key instructions (spec 44_timer_input.md). -/

namespace Sys2Proof.Machine

/-- Settles O51: each is one write (R98, R99, R100). -/
theorem timerMoves : Obligations.TimerMoves := by
  intro x s
  exact ⟨decodeInvertsEncode (.ldVxDt x) rfl, decodeInvertsEncode (.ldDtVx x) rfl, decodeInvertsEncode (.ldStVx x) rfl,
    ⟨_, rfl, State.getV_setV_same s x s.dt, setV_frame s x s.dt⟩, ⟨_, exec_ldDtVx x s, rfl, fun _ => rfl⟩,
    ⟨_, exec_ldStVx x s, rfl, fun _ => rfl⟩⟩

/-- Settles O52: both are the shared skip, on the level of the key (R101, R102, R104). -/
theorem keySkipsTestCurrentLevel : Obligations.KeySkipsTestCurrentLevel := by
  intro x s
  refine ⟨fun k hk => ?_, fun h => ⟨exec_skp_fault (by omega), exec_sknp_fault (by omega)⟩⟩
  have hkey := keyOperand_of_toNat hk
  rw [exec_skp_ok hkey, exec_sknp_ok hkey, skipIf_eq, skipIf_eq]
  refine ⟨rfl, ?_⟩
  cases s.keyCur[k] <;> rfl

/-- Settles O53, by whether a key is released; the one reported is a released key, whatever the choice (R103). -/
theorem keyWaitReportsARelease : Obligations.KeyWaitReportsARelease := by
  intro x s
  refine ⟨fun h => exec_ldVxK_nil (releasedKeys_eq_nil.2 h), fun ⟨j, hj⟩ => ?_⟩
  cases hr : releasedKeys s with
  | nil => exact absurd hj (releasedKeys_eq_nil.1 hr j)
  | cons k ks =>
    obtain ⟨hprev, hcur⟩ := mem_releasedKeys.1 (hr ▸ keywaitPick_mem k ks)
    refine ⟨_, exec_ldVxK_cons hr, ⟨keywaitPick k ks, hprev, hcur, ?_⟩, setV_frame s x _⟩
    rw [State.getV_setV_same, BitVec.toNat_ofNat]
    omega

/-- Settles O54: `pc` goes back over the Step's advance (R103). -/
theorem keyWaitStepRearms : Obligations.KeyWaitStepRearms := by
  intro x s hs hw hk
  rw [step_fetchesWord hs hw (decodeInvertsEncode (.ldVxK x) rfl), exec_ldVxK_nil (s := s.advanced) (releasedKeys_eq_nil.2 hk),
    State.advanced_pc, BitVec.add_sub_cancel]
  rfl

end Sys2Proof.Machine
end

section
/-! SUPPORT. What a drawing does to the canvas (spec 43_display.md R94): which pixels it inverts, and when it collides; first of
one sprite pixel, then of a row, then of all the rows. -/

namespace Sys2Proof.Machine

/-- From `d` to `d'` exactly the pixels of `p` were inverted, each once, and a collision was added exactly when one of them was
on. -/
def Inverts (p : Nat → Nat → Bool) (d d' : Canvas) : Prop :=
  (∀ (i : Fin 32) (j : Fin 64), d'.fb[i][j] = (d.fb[i][j] ^^ p i.val j.val)) ∧
    (d'.hit = true ↔ d.hit = true ∨ ∃ (i : Fin 32) (j : Fin 64), p i.val j.val = true ∧ d.fb[i][j] = true)

theorem Inverts.congr {p q : Nat → Nat → Bool} {d d' : Canvas} (h : Inverts p d d') (hpq : ∀ i j, p i j = q i j) :
    Inverts q d d' := by
  obtain rfl : p = q := funext₂ hpq
  exact h

theorem inverts_refl (d : Canvas) : Inverts (fun _ _ => false) d d := by
  simp [Inverts]

/-- Two drawings without a common pixel, one after the other. -/
theorem Inverts.trans {p q : Nat → Nat → Bool} {d d' d'' : Canvas} (h : Inverts p d d') (h' : Inverts q d' d'')
    (hpq : ∀ i j, p i j = true → q i j = false) : Inverts (fun i j => p i j || q i j) d d'' := by
  obtain ⟨hfb, hhit⟩ := h
  obtain ⟨hfb', hhit'⟩ := h'
  refine ⟨fun i j => ?_, ?_⟩
  · rw [hfb', hfb, Bool.xor_assoc]
    cases hp : p i.val j.val with
    | false => simp only [hp, Bool.false_xor, Bool.false_or]
    | true => simp only [hp, hpq i j hp, Bool.xor_false, Bool.or_false]
  · have hsame : ∀ (i : Fin 32) (j : Fin 64), q i.val j.val = true → d'.fb[i][j] = d.fb[i][j] := fun i j hq => by
      rw [hfb]
      cases hp : p i.val j.val
      · exact Bool.xor_false _
      · rw [hpq i j hp] at hq; cases hq
    rw [hhit', hhit, or_assoc]
    refine or_congr_right ⟨?_, ?_⟩
    · rintro (⟨i, j, hp, hon⟩ | ⟨i, j, hq, hon⟩)
      · exact ⟨i, j, by simp [hp], hon⟩
      · exact ⟨i, j, by simp [hq], hsame i j hq ▸ hon⟩
    · rintro ⟨i, j, hpq, hon⟩
      rcases (Bool.or_eq_true _ _).mp hpq with hp | hq
      · exact .inl ⟨i, j, hp, hon⟩
      · exact .inr ⟨i, j, hq, (hsame i j hq).trans hon⟩

theorem plot_inverts (row col : Nat) (d : Canvas) : Inverts (fun i j => decide (i = row ∧ j = col)) d (plot row col d) := by
  refine ⟨fun i j => ?_, ?_⟩
  · rw [plot_pixel]
    by_cases h : i.val = row ∧ j.val = col <;> simp [h]
  · simp only [plot_hit, decide_eq_true_eq, and_assoc]

/-- A sprite pixel plotted or not, by its bit. -/
theorem plot_if_inverts (b : Bool) (row col : Nat) (d : Canvas) :
    Inverts (fun i j => decide (i = row ∧ j = col) && b) d (if b then plot row col d else d) := by
  cases b
  · exact (inverts_refl d).congr fun _ _ => (Bool.and_false _).symm
  · exact (plot_inverts row col d).congr fun _ _ => (Bool.and_true _).symm

/-- The sprite row `b` at `row`, from column `x0` on, has a 1 bit on the pixel at `i`, `j`, among its first `n` columns (R95). -/
def rowBit (n : Nat) (b : Byte) (row x0 i j : Nat) : Bool :=
  decide (i = row ∧ x0 ≤ j ∧ j < x0 + n) && b.getLsbD (7 - (j - x0))

/-- The first `n` columns of a sprite row drawn; `drawRow` is all eight. -/
def drawColumns (n : Nat) (b : Byte) (row x0 : Nat) (d : Canvas) : Canvas :=
  (List.range n).foldl (fun d c => if b.getLsbD (7 - c) then plot row (x0 + c) d else d) d

theorem drawColumns_succ (n : Nat) (b : Byte) (row x0 : Nat) (d : Canvas) :
    drawColumns (n + 1) b row x0 d =
      if b.getLsbD (7 - n) then plot row (x0 + n) (drawColumns n b row x0 d) else drawColumns n b row x0 d := by
  rw [drawColumns, List.range_succ, List.foldl_append]
  rfl

theorem drawColumns_inverts (b : Byte) (row x0 : Nat) (d : Canvas) (n : Nat) :
    Inverts (rowBit n b row x0) d (drawColumns n b row x0 d) := by
  induction n with
  | zero => exact (inverts_refl d).congr fun i j => by simp [rowBit]
  | succ n ih =>
    have hn := plot_if_inverts (b.getLsbD (7 - n)) row (x0 + n) (drawColumns n b row x0 d)
    rw [← drawColumns_succ] at hn
    refine (ih.trans hn fun i j h => ?_).congr fun i j => ?_
    · simp only [rowBit, Bool.and_eq_true, Bool.and_eq_false_iff, decide_eq_true_eq, decide_eq_false_iff_not] at h ⊢
      omega
    · by_cases hj : j = x0 + n
      · subst hj
        simp [rowBit]
      · have hlt : j < x0 + (n + 1) ↔ j < x0 + n := by omega
        simp [rowBit, hj, hlt]

theorem drawRow_inverts (b : Byte) (row x0 : Nat) (d : Canvas) : Inverts (rowBit 8 b row x0) d (drawRow b row x0 d) :=
  drawColumns_inverts b row x0 d 8

/-- The rows `bs` from `row` down have a 1 bit on the pixel at `i`, `j` (R94, R95). -/
def rowsBit (bs : List Byte) (row x0 i j : Nat) : Bool :=
  decide (row ≤ i ∧ i < row + bs.length ∧ x0 ≤ j ∧ j < x0 + 8) && (bs.getD (i - row) 0).getLsbD (7 - (j - x0))

theorem drawRows_inverts (bs : List Byte) (row x0 : Nat) (d : Canvas) :
    Inverts (rowsBit bs row x0) d (drawRows bs row x0 d) := by
  induction bs generalizing row d with
  | nil => exact (inverts_refl d).congr fun i j => by simp [rowsBit]
  | cons b bs ih =>
    refine ((drawRow_inverts b row x0 d).trans (ih (row + 1) (drawRow b row x0 d)) fun i j h => ?_).congr fun i j => ?_
    · simp only [rowBit, rowsBit, Bool.and_eq_true, Bool.and_eq_false_iff, decide_eq_true_eq, decide_eq_false_iff_not] at h ⊢
      omega
    · rcases Nat.lt_trichotomy i row with hi | rfl | hi
      · simp [rowBit, rowsBit, show i ≠ row by omega, show ¬ row ≤ i by omega, show ¬ row + 1 ≤ i by omega]
      · simp [rowBit, rowsBit]
      · have hlt : i < row + 1 + bs.length ↔ i < row + (bs.length + 1) := by omega
        have hidx : i - row = (i - (row + 1)) + 1 := by omega
        simp [rowBit, rowsBit, show i ≠ row by omega, show row ≤ i by omega, show row + 1 ≤ i by omega, hlt, hidx]

/-- Dxyn inverts exactly the pixels on which its sprite has a 1 bit (R94, R95). -/
theorem drawnCanvas_inverts (x y : Reg) (n : Nat) (s : State) :
    Inverts (spriteBit s x y n) ⟨s.fb, false⟩ (drawnCanvas x y n s) := by
  refine (drawRows_inverts _ _ _ _).congr fun i j => ?_
  simp only [rowsBit, spriteBit, spriteBytes, List.length_map, List.length_range, drawXMod]
  generalize (s.getV x).toNat % 64 = x0
  generalize (s.getV y).toNat % drawYMod = y0
  by_cases h : y0 ≤ i ∧ i < y0 + n ∧ x0 ≤ j ∧ j < x0 + 8
  · have hlt : i - y0 < n := by omega
    simp [h, hlt]
  · simp [h]

end Sys2Proof.Machine
end

section
/-! PROOFS. Display (spec 43_display.md): the draw. -/

namespace Sys2Proof.Machine

theorem spriteBit_congr {s t : State} (hV : t.V = s.V) (hI : t.I = s.I) (hm : t.mem = s.mem) : spriteBit t = spriteBit s := by
  funext x y n row col
  unfold spriteBit State.getV
  rw [hV, hI, hm]

/-- Settles O49: the canvas is the framebuffer with the sprite's pixels inverted, and VF its collision (R94, R95, R96). -/
theorem drawIsPixelwiseXor : Obligations.DrawIsPixelwiseXor := by
  intro x y n s h
  obtain ⟨hfb, hhit⟩ := drawnCanvas_inverts x y n s
  have hvf : ∀ b : Bool, (((s.setFb (drawnCanvas x y n s).fb).setV vf (flagByte b)).setDirty true).getV vf = flagByte b :=
    fun b => State.getV_setV_same _ vf _
  refine ⟨_, exec_drw_ok (accessFault_eq_none.2 h), hfb, fun ⟨row, col, hon, hbit⟩ => ?_, fun hnone => ?_, rfl,
    fun r hr => State.getV_setV_other _ _ hr, rfl, fun _ => rfl⟩
  · rw [hvf, hhit.2 (.inr ⟨row, col, hbit, hon⟩)]
    rfl
  · have hfalse : (drawnCanvas x y n s).hit = false := by
      rw [Bool.eq_false_iff]
      intro ht
      obtain hf | ⟨row, col, hbit, hon⟩ := hhit.1 ht
      · cases hf
      · rw [hnone row col hon] at hbit; cases hbit
    rw [hvf, hfalse]
    rfl

/-! ### A completed draw -/

section
variable {x y : Reg} {n : Nat} {s t : State} (h : exec (.drw x y n) s = .next t)
include h

theorem exec_drw_pixel (row : Fin 32) (col : Fin 64) :
    t.pixel row col = (s.pixel row col ^^ spriteBit s x y n row.val col.val) := by
  obtain ⟨t', ht', hpix, -⟩ := drawIsPixelwiseXor x y n s (accessFault_eq_none.1 (faultOf_eq_none_of_next h))
  cases h.symm.trans ht'
  exact hpix row col

/-- VF tells a collision (R94). -/
theorem exec_drw_vf :
    t.getV vf = 1 ↔ ∃ (row : Fin 32) (col : Fin 64), s.pixel row col = true ∧ spriteBit s x y n row.val col.val = true := by
  obtain ⟨t', ht', -, hcol, hno, -⟩ := drawIsPixelwiseXor x y n s (accessFault_eq_none.1 (faultOf_eq_none_of_next h))
  cases h.symm.trans ht'
  refine ⟨fun hvf => ?_, hcol⟩
  by_contra hex
  rw [hno fun row col hon => Bool.eq_false_iff.2 fun hbit => hex ⟨row, col, hon, hbit⟩] at hvf
  cases hvf

end

/-- The sprite of a second draw from the same registers is that of the first: neither `I` nor memory changed. -/
theorem spriteBit_after_draw {x y : Reg} {n : Nat} {s t : State} (h : exec (.drw x y n) s = .next t) :
    spriteBit { t with V := s.V } = spriteBit s := by
  obtain ⟨f, b, rfl⟩ := exec_drw_inv h
  exact spriteBit_congr rfl rfl rfl

/-- Settles O50: XOR with the same sprite twice is the identity, and a sprite pixel on the screen is on before the first draw or
before the second (R94). -/
theorem drawTwiceRestoresDisplay : Obligations.DrawTwiceRestoresDisplay := by
  intro x y n s t h
  have hin : accessFault s.I.toNat n = none := faultOf_eq_none_of_next h
  have hI : t.I = s.I := by
    obtain ⟨f, b, rfl⟩ := exec_drw_inv h
    rfl
  obtain ⟨u, hu⟩ : ∃ u, exec (.drw x y n) { t with V := s.V } = .next u := ⟨_, exec_drw_ok (hI ▸ hin)⟩
  have hpix' := exec_drw_pixel hu
  have hvf' := exec_drw_vf hu
  rw [spriteBit_after_draw h] at hpix' hvf'
  have hpix := exec_drw_pixel h
  refine ⟨u, hu, fun row col => ?_, ?_⟩
  · rw [hpix' row col]
    exact (congrArg (· ^^ _) (hpix row col)).trans (by rw [Bool.xor_assoc, Bool.xor_self, Bool.xor_false])
  · rw [exec_drw_vf h, hvf']
    constructor
    · rintro (⟨row, col, -, hbit⟩ | ⟨row, col, -, hbit⟩) <;> exact ⟨row, col, hbit⟩
    · rintro ⟨row, col, hbit⟩
      cases hon : s.pixel row col with
      | true => exact .inl ⟨row, col, hon, hbit⟩
      | false => exact .inr ⟨row, col, (hpix row col).trans (by rw [hon, hbit]; rfl), hbit⟩

end Sys2Proof.Machine
end
